-- ==== Sys2Proof/Config.lean ====
section
/-! DEFINITION. What an implementation fixes: the parameters of rule R4 (`00_scope.md`), each under the name the
rule's table gives it. Nine are fixed by the spec; XLEN is open and is fixed here at the spec's default. There is no
free value in this model: the spec leaves no value of the machine open (`93_implementation_defined.md`). -/

namespace Sys2Proof.Config

/-- XLEN, the width in bits of every register and of every memory cell (R4). DESIGN CHOICE (log entry 1): the spec
lets a model fix it at the stated default, 32. The machine never uses more of it than `xlen_ge_constBits`. -/
abbrev xlen : Nat := 32

/-- WORD_BYTES: bytes per instruction word, and the fetch stride (R4, R50). -/
abbrev wordBytes : Nat := 8

/-- WORD_BITS: bits per instruction word (R4). -/
abbrev wordBits : Nat := 64

/-- OPCODE_BITS: width of field A (R4, R53). -/
abbrev opcodeBits : Nat := 4

/-- NUM_REGS: registers in the register file (R4, R11). -/
abbrev numRegs : Nat := 64

/-- REG_INDEX_BITS: width of every register-index field (R4, R12). -/
abbrev regIndexBits : Nat := 6

/-- MEM_CELLS: cells of the data memory; valid addresses are 0 to 65535 (R4, R36). -/
abbrev memCells : Nat := 65536

/-- CONST_BITS: width of load-const's constant field (R4, R55). -/
abbrev constBits : Nat := 21

/-- OFFSET_BITS: width of the offset field of read-value and write-value (R4, R56, R57). -/
abbrev offsetBits : Nat := 6

/-- MEMADDR_BITS: width of greater-or-equal's literal memory-address field (R4, R58). -/
abbrev memAddrBits : Nat := 28

/-- R4 asks XLEN >= 21: the constant of load-const fits a register. -/
theorem xlen_ge_constBits : constBits ≤ xlen := by decide

/-- R12: a 6-bit field names exactly the 64 registers. -/
theorem numRegs_eq_pow : numRegs = 2 ^ regIndexBits := by decide

/-- R4: an instruction word has 8 bits in each of its 8 bytes. -/
theorem wordBits_eq : wordBits = 8 * wordBytes := by decide

end Sys2Proof.Config
end

