-- ==== Sys2Proof/Word.lean ====
section
/-! DEFINITION. The word types. A register or cell value is XLEN unsigned bits (R8, R11), an instruction word is 64 bits
(R50), a stream byte is 8 bits (R6); a register index is one of 64 names (R12). -/

namespace Sys2Proof

/-- The value of a register or of a memory cell: XLEN bits, unsigned (R4, R11, R22). -/
abbrev Word := BitVec Config.xlen

/-- One byte of the instruction stream (R6, R8). -/
abbrev Byte := BitVec 8

/-- An instruction word `w`: 64 bits, bit 0 the least significant (R8, R50). -/
abbrev InstrWord := BitVec Config.wordBits

/-- A register index, 0 to 63. Every 6-bit field value is one, and there is no other (R12). -/
abbrev RegIdx := Fin Config.numRegs

end Sys2Proof
end

