-- ==== Sys2Proof/Syntax.lean ====
section
/-! DEFINITION. The instructions: one constructor per row of `spec/opcode_table.json`, the four instructions of the set
(R54) and the twelve unrecognized opcode values (R60), with the operands of R62 in the order B, C, D. -/

namespace Sys2Proof

/-- What a 64-bit instruction word decodes to (R53, R62). An operand's type is its field's width (R52: every value of
that width is legal), so no ill-formed instruction can be written. -/
inductive Instr where
  /-- load-const, opcode 14 (R55, R80): `x[rd] <- const`. -/
  | loadConst (rd : RegIdx) (const : BitVec Config.constBits)
  /-- read-value, opcode 5 (R56, R85): `x[rd] <- mem[x[rbase] + off]` if in bounds. -/
  | readValue (rbase : RegIdx) (rd : RegIdx) (off : BitVec Config.offsetBits)
  /-- write-value, opcode 3 (R57, R86): `mem[x[rbase] + off] <- x[rdata]` if in bounds. Field B is the data register,
  field C the base-address register: the roles are not those of read-value (`90_conflicts.md` C3). -/
  | writeValue (rdata : RegIdx) (rbase : RegIdx) (off : BitVec Config.offsetBits)
  /-- greater-or-equal, opcode 10 (R58, R95): `mem[x[raddr]] <- (x[rleft] >= mem[memaddr]) ? 1 : 0` if both addresses
  are in bounds. Field B names the register that holds the destination address; it is not written. -/
  | greaterOrEqual (raddr : RegIdx) (memaddr : BitVec Config.memAddrBits) (rleft : RegIdx)
  /-- Unrecognized opcode 0: a no-op slot (R105). -/
  | unrecognized0
  /-- Unrecognized opcode 1: a no-op slot (R105). -/
  | unrecognized1
  /-- Unrecognized opcode 2: a no-op slot (R105). -/
  | unrecognized2
  /-- Unrecognized opcode 4: a no-op slot (R105). -/
  | unrecognized4
  /-- Unrecognized opcode 6: a no-op slot (R105). -/
  | unrecognized6
  /-- Unrecognized opcode 7: a no-op slot (R105). -/
  | unrecognized7
  /-- Unrecognized opcode 8: a no-op slot (R105). -/
  | unrecognized8
  /-- Unrecognized opcode 9: a no-op slot (R105). -/
  | unrecognized9
  /-- Unrecognized opcode 11: a no-op slot (R105). -/
  | unrecognized11
  /-- Unrecognized opcode 12: a no-op slot (R105). -/
  | unrecognized12
  /-- Unrecognized opcode 13: a no-op slot (R105). -/
  | unrecognized13
  /-- Unrecognized opcode 15: a no-op slot (R105). -/
  | unrecognized15
  deriving DecidableEq, Repr

end Sys2Proof
end

