-- ==== Sys2Proof/WellFormed.lean ====
section
/-! DEFINITION. Well-formedness. An instruction as a term has no ill-formed value (R12, R52), so the check on terms holds
of every term; the check that can fail is the one on the 64-bit word, which is canonical when the bits above its
layout's last field are 0 (R59). No step asks for it: a word that is not canonical runs as its canonical form does. -/

namespace Sys2Proof

/-- Each operand lies in its field's range (R52, R55 to R58). The operand types already say so
(`Laws.Instr.wellFormed_all`), as R12 and R52 ask: "no field value makes an instruction invalid". -/
def Instr.wellFormed : Instr → Bool
  | .loadConst rd const => decide (rd.val < 64) && decide (const.toNat < 2 ^ 21)
  | .readValue rbase rd off => decide (rbase.val < 64) && decide (rd.val < 64) && decide (off.toNat < 2 ^ 6)
  | .writeValue rdata rbase off => decide (rdata.val < 64) && decide (rbase.val < 64) && decide (off.toNat < 2 ^ 6)
  | .greaterOrEqual raddr memaddr rleft =>
    decide (raddr.val < 64) && decide (memaddr.toNat < 2 ^ 28) && decide (rleft.val < 64)
  | .unrecognized0 => true
  | .unrecognized1 => true
  | .unrecognized2 => true
  | .unrecognized4 => true
  | .unrecognized6 => true
  | .unrecognized7 => true
  | .unrecognized8 => true
  | .unrecognized9 => true
  | .unrecognized11 => true
  | .unrecognized12 => true
  | .unrecognized13 => true
  | .unrecognized15 => true

/-- The number of low bits the layout of opcode `a` uses (R59): the unused bits are 63:31 for load-const, 63:22 for
read-value and write-value, 63:44 for greater-or-equal, 63:4 for an unrecognized opcode. -/
def usedBits (a : Nat) : Nat :=
  if a = 14 then 31
  else if a = 5 then 22
  else if a = 3 then 22
  else if a = 10 then 44
  else 4

/-- The word is its instruction's canonical encoding: every bit above the selected layout's last field is 0 (R59). -/
def canonicalWord (w : InstrWord) : Bool :=
  decide (w.toNat < 2 ^ usedBits (w.toNat % 16))

end Sys2Proof
end

