-- ==== Sys2Proof/Decode.lean ====
section
/-! DEFINITION. The instruction-word unmarshaller and the instruction decoder, total on every 64-bit word (R51, R62), and
after them the encoder, from the same layout tables (R55 to R58, R63, R66). -/

namespace Sys2Proof

/-! ## Field extraction and packing -/

/-- `extract_bits(w, start, len)`, the slice `w[start+len-1 : start]` (R8, R51, R52). Past bit 63 the source gives it no
meaning (`93_implementation_defined.md` U1): `_fits` is that precondition, so the case cannot be written. -/
def extractBits (w : InstrWord) (start len : Nat) (_fits : start + len ≤ 64) : BitVec len :=
  w.extractLsb' start len

/-- `set_bits` in word terms (R63): the low `len` bits of `value` replace bits `start` to `start + len - 1`. Past bit 63 it
is undefined by contract (U1): `_fits` is the caller's obligation. A negative value counts modulo `2^len` (D15). -/
def setBits (w : InstrWord) (start len : Nat) (value : Int) (_fits : start + len ≤ 64) : InstrWord :=
  let mask : InstrWord := (1#64 <<< len) - 1#64
  (w &&& ~~~(mask <<< start)) ||| ((BitVec.ofInt 64 value &&& mask) <<< start)

/-- A 6-bit register-index field at bit `start` (R12): always one of the 64 registers. -/
def regField (w : InstrWord) (start : Nat) (fits : start + Config.regIndexBits ≤ 64) : RegIdx :=
  ⟨(extractBits w start Config.regIndexBits fits).toNat, (extractBits w start Config.regIndexBits fits).isLt⟩

/-- Field A, the opcode, `w[3:0]` (R53). -/
def opcodeOf (w : InstrWord) : BitVec Config.opcodeBits :=
  extractBits w 0 Config.opcodeBits (by decide)

/-! ## Bytes and words -/

/-- The little-endian word of a sequence of bytes, the first at the lowest stream offset (R30, R51): the first byte
is or-ed with the word of the rest shifted up by one byte. -/
def wordOfBytes : List Byte → InstrWord
  | [] => 0#64
  | b :: bs => b.setWidth 64 ||| (wordOfBytes bs <<< 8)

/-- The 8 bytes of a word in stream order: `b[k] = (w >> 8k) & 0xFF` (R66). -/
def bytesOfWord (w : InstrWord) : List Byte :=
  List.ofFn fun k : Fin 8 => extractBits w (8 * k.val) 8 (by omega)

/-! ## The decoder -/

/-- Layout of load-const (R55): B = 9:4, C = 30:10. -/
def decodeLoadConst (w : InstrWord) : Instr :=
  .loadConst (regField w 4 (by decide)) (extractBits w 10 Config.constBits (by decide))

/-- Layout of read-value (R56): B = 9:4, C = 15:10, D = 21:16. -/
def decodeReadValue (w : InstrWord) : Instr :=
  .readValue (regField w 4 (by decide)) (regField w 10 (by decide)) (extractBits w 16 Config.offsetBits (by decide))

/-- Layout of write-value (R57): B = 9:4, C = 15:10, D = 21:16. -/
def decodeWriteValue (w : InstrWord) : Instr :=
  .writeValue (regField w 4 (by decide)) (regField w 10 (by decide)) (extractBits w 16 Config.offsetBits (by decide))

/-- Layout of greater-or-equal (R58): B = 9:4, C = 37:10, D = 43:38. -/
def decodeGreaterOrEqual (w : InstrWord) : Instr :=
  .greaterOrEqual (regField w 4 (by decide)) (extractBits w 10 Config.memAddrBits (by decide)) (regField w 38 (by decide))

/-- The decode function, total on all 64-bit words (R62): field A alone selects the instruction (R53, R54), and nothing is
refused. The last arm is opcode 15, the one 4-bit value the arms before it leave. -/
def decodeWord (w : InstrWord) : Instr :=
  match (opcodeOf w).toNat with
  | 14 => decodeLoadConst w
  | 5 => decodeReadValue w
  | 3 => decodeWriteValue w
  | 10 => decodeGreaterOrEqual w
  | 0 => .unrecognized0
  | 1 => .unrecognized1
  | 2 => .unrecognized2
  | 4 => .unrecognized4
  | 6 => .unrecognized6
  | 7 => .unrecognized7
  | 8 => .unrecognized8
  | 9 => .unrecognized9
  | 11 => .unrecognized11
  | 12 => .unrecognized12
  | 13 => .unrecognized13
  | _ => .unrecognized15

/-- Why the bytes at hand are no instruction word. -/
inductive DecodeReject where
  /-- Fewer than 8 bytes are left: a trailing partial instruction, which the machine never fetches (R15). -/
  | trailingPartialInstruction
  deriving DecidableEq, Repr

/-- Decode the first instruction of a byte sequence and answer the rest of it. Every instruction is 8 bytes (R50), and every
8 bytes are an instruction (R60); only a trailing partial instruction is none (R15). -/
def decode : List Byte → Except DecodeReject (Instr × List Byte)
  | b0 :: b1 :: b2 :: b3 :: b4 :: b5 :: b6 :: b7 :: rest =>
    .ok (decodeWord (wordOfBytes [b0, b1, b2, b3, b4, b5, b6, b7]), rest)
  | _ => .error .trailingPartialInstruction

/-! ## The encoder -/

/-- load-const's canonical word from operands of any size, each cut to its field (R63, R66, R82). -/
def packLoadConst (b c : Int) : InstrWord :=
  setBits (setBits (setBits 0#64 0 4 14 (by decide)) 4 6 b (by decide)) 10 21 c (by decide)

/-- read-value's canonical word (R66, R89). -/
def packReadValue (b c d : Int) : InstrWord :=
  setBits (setBits (setBits (setBits 0#64 0 4 5 (by decide)) 4 6 b (by decide)) 10 6 c (by decide)) 16 6 d (by decide)

/-- write-value's canonical word (R66, R89). -/
def packWriteValue (b c d : Int) : InstrWord :=
  setBits (setBits (setBits (setBits 0#64 0 4 3 (by decide)) 4 6 b (by decide)) 10 6 c (by decide)) 16 6 d (by decide)

/-- greater-or-equal's canonical word (R66, R99). -/
def packGreaterOrEqual (b c d : Int) : InstrWord :=
  setBits (setBits (setBits (setBits 0#64 0 4 10 (by decide)) 4 6 b (by decide)) 10 28 c (by decide)) 38 6 d (by decide)

/-- The word of an unrecognized opcode with every ignored bit 0 (R59, R60). The assembler has none of these (R107). -/
def packUnrecognized (a : Int) : InstrWord :=
  setBits 0#64 0 4 a (by decide)

/-- The value of field A that selects the instruction (R53). -/
def Instr.opcode : Instr → Nat
  | .loadConst _ _ => 14
  | .readValue _ _ _ => 5
  | .writeValue _ _ _ => 3
  | .greaterOrEqual _ _ _ => 10
  | .unrecognized0 => 0
  | .unrecognized1 => 1
  | .unrecognized2 => 2
  | .unrecognized4 => 4
  | .unrecognized6 => 6
  | .unrecognized7 => 7
  | .unrecognized8 => 8
  | .unrecognized9 => 9
  | .unrecognized11 => 11
  | .unrecognized12 => 12
  | .unrecognized13 => 13
  | .unrecognized15 => 15

/-- The canonical word of an instruction (R59, R66). -/
def encodeWord : Instr → InstrWord
  | .loadConst rd const => packLoadConst rd.val const.toNat
  | .readValue rbase rd off => packReadValue rbase.val rd.val off.toNat
  | .writeValue rdata rbase off => packWriteValue rdata.val rbase.val off.toNat
  | .greaterOrEqual raddr memaddr rleft => packGreaterOrEqual raddr.val memaddr.toNat rleft.val
  | .unrecognized0 => packUnrecognized 0
  | .unrecognized1 => packUnrecognized 1
  | .unrecognized2 => packUnrecognized 2
  | .unrecognized4 => packUnrecognized 4
  | .unrecognized6 => packUnrecognized 6
  | .unrecognized7 => packUnrecognized 7
  | .unrecognized8 => packUnrecognized 8
  | .unrecognized9 => packUnrecognized 9
  | .unrecognized11 => packUnrecognized 11
  | .unrecognized12 => packUnrecognized 12
  | .unrecognized13 => packUnrecognized 13
  | .unrecognized15 => packUnrecognized 15

/-- The 8 bytes of an instruction in stream order (R50, R66). -/
def encode (i : Instr) : List Byte :=
  bytesOfWord (encodeWord i)

/-! ## Words as the opcode table numbers them -/

/-- The 8 stream bytes of a table row's word: bit 0 of `w` is bit 0 of the first byte (R8, R30), and every bit from
`nbits` up is 0. -/
def tableWordBytes (nbits w : Nat) : List Byte :=
  bytesOfWord (BitVec.ofNat 64 (w % 2 ^ nbits))

/-- What the decoder reads from an instruction whose bits are `w`, numbered as `spec/opcode_table.json` numbers them. -/
def decodeTableWord (nbits w : Nat) : Option Instr :=
  match decode (tableWordBytes nbits w) with
  | .ok (i, _) => some i
  | .error _ => none

end Sys2Proof
end

