-- ==== Sys2Proof/Machine/State.lean ====
section
/-! DEFINITION. The machine's state as plain data (R10): the register file, the data memory, the instruction pointer, and
beside them the run's parameter, the instruction stream, which no step writes. Its reset values are rule R24's. -/

namespace Sys2Proof.Machine

/-- The data memory (R22): the listed cells by address, strictly rising, none holding 0; a cell that is not listed holds 0,
its reset value (R24). A cell is one XLEN-bit value and the unit of addressing: the memory is not made of bytes
(R31), so an entry is an address and a `Word`. -/
abbrev Memory := List (Nat × Word)

/-- Everything a run holds (R10). There is nothing else: no flag, no control register, no mode, no hidden state (R18 to R21). -/
structure State where
  /-- The register file `x[0..63]`; none is hardwired (R11). -/
  x : Vector Word Config.numRegs
  /-- The data memory `mem[0..65535]` (R22, R36). -/
  mem : Memory
  /-- The instruction pointer: the stream offset of the next word, a natural number that never wraps (R14, R16). -/
  ip : Nat
  /-- The instruction stream of this run; its length is STREAM_LEN. It is a parameter, fixed with reset and read by fetch
  alone (R6, R10, R22, R41); it is held here because a step is a function of the state (log entry 2). -/
  stream : List Byte
  deriving DecidableEq, Repr

/-- The reset state with a stream supplied: the start state of the run of that stream (R24, R125). -/
def State.load (stream : List Byte) : State :=
  { x := Vector.replicate Config.numRegs 0, mem := [], ip := 0, stream := stream }

/-- The machine right after reset (R24, R125) with no stream loaded: every register 0, every cell 0, `ip` 0, and
STREAM_LEN 0. A program is loaded from outside, by `State.load` (log entry 2). -/
def State.reset : State :=
  State.load []

/-- Why the machine stops with a fault: for no reason. The hardware raises no exception, and execution is total (R110,
R111), so there is no constructor: nothing raises one, and no case is hidden by one (safe; log entry 4). -/
inductive Fault where
  deriving DecidableEq, Repr

/-- Why an instruction has no meaning in this model. No arm of `exec` answers one (R106, R111). -/
inductive Refusal where
  /-- Raised by an arm of `exec` whose instruction is not modelled yet, and there is none. It would be safe: nothing is
  claimed of such an instruction. -/
  | notModelled (mnemonic : String)
  deriving DecidableEq, Repr

/-- What an instruction or a step answers. -/
abbrev Result := Host.Outcome State Fault Refusal

end Sys2Proof.Machine
end

