-- ==== Sys2Proof/Machine/Ops.lean ====
section
/-! DEFINITION. The named operations over memory, registers, the instruction pointer and the stream. Exceptions are taken
nowhere and returned from nowhere, because the hardware has none (R110, R114, R115), so no operation here takes one. -/

namespace Sys2Proof.Machine

/-! ## The memory as a list of cells -/

/-- The value at address `a`: the listed one, or 0, which every unlisted cell holds since reset (R24, R35). -/
def Memory.read : Memory → Nat → Word
  | [], _ => 0
  | (k, v) :: m, a => if a = k then v else Memory.read m a

/-- The memory with no entry for address `a`. -/
def Memory.erase (m : Memory) (a : Nat) : Memory :=
  m.filter fun c => decide (c.1 ≠ a)

/-- The memory with an entry put before the first higher address. -/
def Memory.insert : Memory → Nat → Word → Memory
  | [], a, v => [(a, v)]
  | (k, u) :: m, a, v => if a < k then (a, v) :: (k, u) :: m else (k, u) :: Memory.insert m a v

/-- `mem[a] <- v`, keeping the canonical form: writing 0 leaves no entry. -/
def Memory.write (m : Memory) (a : Nat) (v : Word) : Memory :=
  if v = 0 then Memory.erase m a else Memory.insert (Memory.erase m a) a v

/-- The canonical form: addresses strictly rising, every listed address a cell of the machine (R36), no entry equal to what
an unlisted address reads as. Two canonical memories that read alike are equal. -/
def Memory.wf (m : Memory) : Bool :=
  decide (m.Pairwise fun c d => c.1 < d.1) && m.all fun c => decide (c.1 < Config.memCells) && decide (c.2 ≠ 0)

/-! ## Registers -/

/-- `x[r]` (R8, R11). Reading a register nothing has written gives its reset value, 0 (R134). -/
def readReg (s : State) (r : RegIdx) : Word :=
  s.x.get r

/-- `x[r] <- v` (R8). Every register takes the value: none is hardwired (R11). -/
def writeReg (s : State) (r : RegIdx) (v : Word) : State :=
  { s with x := s.x.set r.val v r.isLt }

/-! ## The load-store unit -/

/-- `InBounds(a)`: the address is below 65536, as an exact natural number (R8, R23). -/
def inBounds (a : Nat) : Bool :=
  decide (a < Config.memCells)

/-- `MemRead(a, 1)`: the whole cell (R8, R35). -/
def memRead (s : State) (a : Nat) : Word :=
  s.mem.read a

/-- `MemWrite(a, 1, v)`: the whole cell (R8, R35). -/
def memWrite (s : State) (a : Nat) (v : Word) : State :=
  { s with mem := s.mem.write a v }

/-- A load of address `a` into register `rd` (R37): out of bounds it is skipped, and the register keeps its value. -/
def loadCell (s : State) (a : Nat) (rd : RegIdx) : State :=
  if inBounds a then writeReg s rd (memRead s a) else s

/-- A store of `v` to address `a` (R37): out of bounds it is skipped, and no cell changes. -/
def storeCell (s : State) (a : Nat) (v : Word) : State :=
  if inBounds a then memWrite s a v else s

/-! ## The instruction pointer and the stream -/

/-- `pc <- pc + 8`, the only assignment there is to `ip` (R8, R14, R17). -/
def advance (s : State) : State :=
  { s with ip := s.ip + Config.wordBytes }

/-- The machine is halted: fewer than 8 stream bytes remain (R14, R128). -/
def halted (s : State) : Bool :=
  decide (s.stream.length < s.ip + Config.wordBytes)

/-- `StreamRead(off, 8)`: the stream bytes from `off` on, at most 8 (R8). It is called only when 8 remain. -/
def streamRead (stream : List Byte) (off : Nat) : List Byte :=
  (stream.drop off).take Config.wordBytes

/-- The instruction word at `ip` (R7, R51). -/
def fetchWord (s : State) : InstrWord :=
  wordOfBytes (streamRead s.stream s.ip)

/-- The stream with the 8 bytes `bs` from offset `off` on in place of what stood there; bytes of 0 fill the gap where the
stream was shorter. The machine has no such operation: it stands for loading a program from outside. -/
def placeBytes (stream : List Byte) (off : Nat) (bs : List Byte) : List Byte :=
  stream.take off ++ List.replicate (off - stream.length) 0 ++ bs ++ stream.drop (off + Config.wordBytes)

/-! ## The result of a run -/

/-- What the host may read, and only once the machine is halted: the registers and the memory, without `ip` (R6, R128,
R129). -/
def readOut (s : State) : Option (Vector Word Config.numRegs × Memory) :=
  if halted s then some (s.x, s.mem) else none

end Sys2Proof.Machine
end

