-- ==== Sys2Proof/Machine/Operands.lean ====
section
/-! DEFINITION. The operand forms (R61), all of them: a register (`readReg`), the three immediates, each zero-extended and
used at face value, and the two addresses formed from a register. An address is an exact natural number (R23). -/

namespace Sys2Proof.Machine

/-- The 21-bit constant as a register value, zero-extended (R61, R80). -/
def constValue (const : BitVec Config.constBits) : Word :=
  const.setWidth Config.xlen

/-- The register-plus-offset cell address `x[r] + D`: exact addition, never wrapped or cut (R61, R87; D2). -/
def baseOffsetAddr (s : State) (rbase : RegIdx) (off : BitVec Config.offsetBits) : Nat :=
  (readReg s rbase).toNat + off.toNat

/-- The literal 28-bit cell address of greater-or-equal, used as it is (R61, R95). -/
def literalAddr (memaddr : BitVec Config.memAddrBits) : Nat :=
  memaddr.toNat

/-- The register-indirect cell address `x[r]`, the destination of greater-or-equal (R23, R95). -/
def registerAddr (s : State) (raddr : RegIdx) : Nat :=
  (readReg s raddr).toNat

end Sys2Proof.Machine
end

