-- ==== Sys2Proof/Machine/Flags.lean ====
section
/-! DEFINITION. The comparison ALU. There are no flags and no condition codes (R18): the one comparison gives the value 1 or
0, which greater-or-equal stores in a memory cell. -/

namespace Sys2Proof.Machine

/-- `a >= b` on XLEN-bit values, unsigned, that is the order of the natural numbers (R97; D3). -/
def unsignedGE (a b : Word) : Bool :=
  decide (b.toNat ≤ a.toNat)

/-- `(a >= b) ? 1 : 0`: a whole cell's value, exactly 1 or exactly 0 (R8, R95 corner case g). -/
def compareResult (a b : Word) : Word :=
  if unsignedGE a b then 1 else 0

end Sys2Proof.Machine
end

