-- ==== Sys2Proof/Machine/Compare.lean ====
section
/-! DEFINITION. Family 3: greater-or-equal (`42_compare.md`). -/

namespace Sys2Proof.Machine

/-- The one effect of greater-or-equal (R95, R96): the cell at `x[B]` gets the result exactly when the literal address and
the destination address are both in bounds (D5, log entry 6); all reads come before the write (R130). -/
def storeComparison (s : State) (raddr : RegIdx) (memaddr : BitVec Config.memAddrBits) (rleft : RegIdx) : State :=
  if inBounds (literalAddr memaddr) && inBounds (registerAddr s raddr) then
    memWrite s (registerAddr s raddr) (compareResult (readReg s rleft) (memRead s (literalAddr memaddr)))
  else s

/-- greater-or-equal (R95): `mem[x[B]] <- (x[D] >= mem[C]) ? 1 : 0` if both addresses are in bounds. -/
def execGreaterOrEqual (raddr : RegIdx) (memaddr : BitVec Config.memAddrBits) (rleft : RegIdx) (s : State) : Result :=
  .next (advance (storeComparison s raddr memaddr rleft))

end Sys2Proof.Machine
end

