-- ==== Sys2Proof/Machine/LoadConst.lean ====
section
/-! DEFINITION. Family 1: load-const (`40_load_const.md`). -/

namespace Sys2Proof.Machine

/-- load-const (R80): `x[B] <- zext_XLEN(C)`, unconditionally. -/
def execLoadConst (rd : RegIdx) (const : BitVec Config.constBits) (s : State) : Result :=
  .next (advance (writeReg s rd (constValue const)))

end Sys2Proof.Machine
end

