-- ==== Sys2Proof/Machine/LoadStore.lean ====
section
/-! DEFINITION. Family 2: read-value and write-value (`41_load_store.md`). -/

namespace Sys2Proof.Machine

/-- read-value (R85): `addr <- x[B] + D`; in bounds, `x[C] <- mem[addr]`; else the load is skipped. -/
def execReadValue (rbase rd : RegIdx) (off : BitVec Config.offsetBits) (s : State) : Result :=
  .next (advance (loadCell s (baseOffsetAddr s rbase off) rd))

/-- write-value (R86): `addr <- x[C] + D`; in bounds, `mem[addr] <- x[B]`; else the store is skipped. -/
def execWriteValue (rdata rbase : RegIdx) (off : BitVec Config.offsetBits) (s : State) : Result :=
  .next (advance (storeCell s (baseOffsetAddr s rbase off) (readReg s rdata)))

end Sys2Proof.Machine
end

