-- ==== Sys2Proof/Machine/Unrecognized.lean ====
section
/-! DEFINITION. The unrecognized opcodes (`43_unrecognized.md`): twelve values of field A, each a no-op slot with a meaning of
its own over one shared operation. -/

namespace Sys2Proof.Machine

/-- A no-op slot (R105, R106): no effect, the instruction pointer still advances by 8. -/
def noOpSlot (s : State) : Result :=
  .next (advance s)

/-- Unrecognized opcode 0 (R105). -/
def execUnrecognized0 (s : State) : Result :=
  noOpSlot s

/-- Unrecognized opcode 1 (R105). -/
def execUnrecognized1 (s : State) : Result :=
  noOpSlot s

/-- Unrecognized opcode 2 (R105). -/
def execUnrecognized2 (s : State) : Result :=
  noOpSlot s

/-- Unrecognized opcode 4 (R105). -/
def execUnrecognized4 (s : State) : Result :=
  noOpSlot s

/-- Unrecognized opcode 6 (R105). -/
def execUnrecognized6 (s : State) : Result :=
  noOpSlot s

/-- Unrecognized opcode 7 (R105). -/
def execUnrecognized7 (s : State) : Result :=
  noOpSlot s

/-- Unrecognized opcode 8 (R105). -/
def execUnrecognized8 (s : State) : Result :=
  noOpSlot s

/-- Unrecognized opcode 9 (R105). -/
def execUnrecognized9 (s : State) : Result :=
  noOpSlot s

/-- Unrecognized opcode 11 (R105). -/
def execUnrecognized11 (s : State) : Result :=
  noOpSlot s

/-- Unrecognized opcode 12 (R105). -/
def execUnrecognized12 (s : State) : Result :=
  noOpSlot s

/-- Unrecognized opcode 13 (R105). -/
def execUnrecognized13 (s : State) : Result :=
  noOpSlot s

/-- Unrecognized opcode 15 (R105). -/
def execUnrecognized15 (s : State) : Result :=
  noOpSlot s

end Sys2Proof.Machine
end

