-- ==== Sys2Proof/Machine/Dispatch.lean ====
section
/-! DEFINITION. One arm per constructor of `Instr`; no arm is refused. -/

namespace Sys2Proof.Machine

def exec (i : Instr) (s : State) : Host.Outcome State Fault Refusal :=
  match i with
  | .loadConst rd const => Sys2Proof.Machine.execLoadConst rd const s
  | .readValue rbase rd off => Sys2Proof.Machine.execReadValue rbase rd off s
  | .writeValue rdata rbase off => Sys2Proof.Machine.execWriteValue rdata rbase off s
  | .greaterOrEqual raddr memaddr rleft => Sys2Proof.Machine.execGreaterOrEqual raddr memaddr rleft s
  | .unrecognized0 => Sys2Proof.Machine.execUnrecognized0 s
  | .unrecognized1 => Sys2Proof.Machine.execUnrecognized1 s
  | .unrecognized2 => Sys2Proof.Machine.execUnrecognized2 s
  | .unrecognized4 => Sys2Proof.Machine.execUnrecognized4 s
  | .unrecognized6 => Sys2Proof.Machine.execUnrecognized6 s
  | .unrecognized7 => Sys2Proof.Machine.execUnrecognized7 s
  | .unrecognized8 => Sys2Proof.Machine.execUnrecognized8 s
  | .unrecognized9 => Sys2Proof.Machine.execUnrecognized9 s
  | .unrecognized11 => Sys2Proof.Machine.execUnrecognized11 s
  | .unrecognized12 => Sys2Proof.Machine.execUnrecognized12 s
  | .unrecognized13 => Sys2Proof.Machine.execUnrecognized13 s
  | .unrecognized15 => Sys2Proof.Machine.execUnrecognized15 s

end Sys2Proof.Machine
end

