-- ==== Sys2Proof/Machine/Step.lean ====
section
/-! DEFINITION. One step: fetch, decode, execute (R7, R131). -/

namespace Sys2Proof.Machine

/-- One step. With 8 stream bytes left at `ip`, the word there is fetched, decoded and executed whole (R130, R131). A
halted machine takes no step and its state never changes again (R14): the answer is the same state, because the model
has no outcome but a next state (R111; DESIGN CHOICE, log entry 3). -/
def step (s : State) : Host.Outcome State Fault Refusal :=
  if halted s then .next s else exec (decodeWord (fetchWord s)) s

/-- The state with a table row's word as the 8 stream bytes at `ip`, so that the very next step runs it. It stands for the
program being loaded from outside, which is how a stream comes into the machine (R6, R125; log entry 2). -/
def State.withFetchWord (s : State) (nbits w : Nat) : State :=
  { s with stream := placeBytes s.stream s.ip (tableWordBytes nbits w) }

end Sys2Proof.Machine
end

