-- ==== Sys2Proof/Machine/Run.lean ====
section
/-! DEFINITION. The run of a stream and its result (R15, R128, R131): the source's `execute(bytecode)`. -/

namespace Sys2Proof.Machine

/-- The number of whole instruction words of a stream, `STREAM_LEN div 8` (R15). -/
def wordCount (stream : List Byte) : Nat :=
  stream.length / Config.wordBytes

/-- The `j`-th instruction word of a stream: bytes `8j` to `8j + 7` (R50). -/
def wordAt (stream : List Byte) (j : Nat) : InstrWord :=
  wordOfBytes (streamRead stream (Config.wordBytes * j))

/-- `k` steps from a state. -/
def run (k : Nat) (s : State) : Result :=
  Host.Core.run Sys2Proof.core k s

/-- The source's `execute(bytecode)`: reset with the stream, `STREAM_LEN div 8` steps, then the read-out of the halted
machine (R6, R125, R128). -/
def execute (stream : List Byte) : Option (Vector Word Config.numRegs × Memory) :=
  match run (wordCount stream) (State.load stream) with
  | .next s => readOut s
  | .fault _ => none
  | .refused _ => none

end Sys2Proof.Machine
end

