-- ==== Sys2Proof/Machine/Assembler.lean ====
section
/-! DEFINITION. The assembler and the disassembler of `30_encoding.md` section 7: toolchain, not hardware (R3 b). No step
uses them; they are modelled because the spec gives their contract (R64 to R69, D15) and its vectors. -/

namespace Sys2Proof.Machine

/-- Program text, as its characters. -/
abbrev Text := List Char

/-- One IR tuple: an operation name as written, and its integer operands in order (R64). -/
structure AsmTuple where
  name : Text
  operands : List Int
  deriving DecidableEq, Repr

/-- What fails a whole assembly (R67, D15 a). It carries no diagnostics of unknown names met before: DESIGN CHOICE, log
entry 12. -/
inductive AsmError where
  /-- A token after the first is no base-10 integer (R67). -/
  | malformedInteger (token : Text)
  /-- A known operation has not the operand count of R65's table (D15 a). -/
  | wrongOperandCount (name : Text)
  deriving DecidableEq, Repr

/-- What an assembly gives: the bytes, and the unknown operation names, each a non-fatal diagnostic (R67). -/
structure AsmOutput where
  bytes : List Byte
  diagnostics : List Text
  deriving DecidableEq, Repr

/-- `load_const` (R64). -/
def nameLoadConst : Text := ['l', 'o', 'a', 'd', '_', 'c', 'o', 'n', 's', 't']

/-- `read_value` (R64). -/
def nameReadValue : Text := ['r', 'e', 'a', 'd', '_', 'v', 'a', 'l', 'u', 'e']

/-- `write_value` (R64). -/
def nameWriteValue : Text := ['w', 'r', 'i', 't', 'e', '_', 'v', 'a', 'l', 'u', 'e']

/-- `greater_or_equal` (R64). -/
def nameGreaterOrEqual : Text :=
  ['g', 'r', 'e', 'a', 't', 'e', 'r', '_', 'o', 'r', '_', 'e', 'q', 'u', 'a', 'l']

/-! ## Numerals

One table of digits serves the parser and the printer: the ten values 0 to 9, each with its character (R64, R69). -/

/-- What a character is worth as a decimal digit: the value below 10 that is written so, if there is one. -/
def digitValue (c : Char) : Option Nat :=
  (List.range 10).find? fun d => Nat.digitChar d == c

/-- The number that a sequence of digit values spells, the most significant first. -/
def numeralValue (ds : List Nat) : Nat :=
  ds.foldl (fun v d => 10 * v + d) 0

/-- The digit values of `n`, the most significant first; `fuel` bounds their number. -/
def numeralDigits : Nat → Nat → List Nat
  | 0, _ => []
  | fuel + 1, n => if n < 10 then [n] else numeralDigits fuel (n / 10) ++ [n % 10]

/-- A natural number in decimal. -/
def printNat (n : Nat) : Text :=
  (numeralDigits (n + 1) n).map Nat.digitChar

/-- A numeral: one digit or more, and nothing else. -/
def parseNat (t : Text) : Option Nat :=
  if t = [] then none else (t.mapM digitValue).map numeralValue

/-- A base-10 integer: a numeral, or one behind a `-` (R64, D15 b). -/
def parseInt (t : Text) : Option Int :=
  if t.head? = some '-' then (parseNat t.tail).map fun n => -(n : Int) else (parseNat t).map Int.ofNat

/-! ## From text to tuples -/

/-- The pieces of a text between the separators `sep`: a separator starts a piece, and any other character joins the piece
that follows it. -/
def splitText (sep : Char) (t : Text) : List Text :=
  t.foldr (fun c pieces => if c = sep then [] :: pieces else pieces.modifyHead (c :: ·)) [[]]

/-- White space: space, tab, carriage return (D15 c; the line feed ends a line). DESIGN CHOICE, log entry 12. -/
def isBlank (c : Char) : Bool :=
  [' ', '\t', '\r'].contains c

/-- A token without the white space around it (D15 c). -/
def trimText (t : Text) : Text :=
  ((t.dropWhile isBlank).reverse.dropWhile isBlank).reverse

/-- A token after the first of a line (R64); one that is no base-10 integer fails the assembly (R67). -/
def parseOperand (token : Text) : Except AsmError Int :=
  match parseInt token with
  | some v => .ok v
  | none => .error (.malformedInteger token)

/-- One line: blank is no tuple; else the first token is the name and the others are the operands in order, the first
malformed one of which fails the assembly (R64, R67). That a line of white space alone is blank, and no tuple with an
empty name, and that the operands are parsed whatever the name, are DESIGN CHOICEs, log entry 12. -/
def parseLine (line : Text) : Except AsmError (Option AsmTuple) :=
  if trimText line = [] then .ok none
  else
    match (splitText ';' line).map trimText with
    | [] => .ok none
    | name :: operands => (operands.mapM parseOperand).map fun vs => some ⟨name, vs⟩

/-- Program text to IR: the tuples of its lines, in order (R64). -/
def parseProgram (text : Text) : Except AsmError (List AsmTuple) :=
  ((splitText '\n' text).mapM parseLine).map fun lines => lines.filterMap id

/-! ## From tuples to bytes -/

/-- The word of one tuple by its operation name, its operands the fields B, C, D in order, each cut to its field (R63,
R65, R66); an unknown name gives no word (R67). -/
def encodeTuple (t : AsmTuple) : Except AsmError (Option InstrWord) :=
  if t.name = nameLoadConst then
    match t.operands with
    | [b, c] => .ok (some (packLoadConst b c))
    | _ => .error (.wrongOperandCount t.name)
  else if t.name = nameReadValue then
    match t.operands with
    | [b, c, d] => .ok (some (packReadValue b c d))
    | _ => .error (.wrongOperandCount t.name)
  else if t.name = nameWriteValue then
    match t.operands with
    | [b, c, d] => .ok (some (packWriteValue b c d))
    | _ => .error (.wrongOperandCount t.name)
  else if t.name = nameGreaterOrEqual then
    match t.operands with
    | [b, c, d] => .ok (some (packGreaterOrEqual b c d))
    | _ => .error (.wrongOperandCount t.name)
  else .ok none

/-- `assemble(IR) -> bytes`: the 8-byte encodings, in input order; an unknown name contributes no bytes and one
diagnostic (R66, R67). An assembly that fails answers its error alone, without the diagnostics of the unknown names
before it: DESIGN CHOICE, log entry 12. -/
def assemble : List AsmTuple → Except AsmError AsmOutput
  | [] => .ok ⟨[], []⟩
  | t :: ts =>
    match encodeTuple t with
    | .error e => .error e
    | .ok w =>
      match assemble ts with
      | .error e => .error e
      | .ok out =>
        match w with
        | some w => .ok ⟨bytesOfWord w ++ out.bytes, out.diagnostics⟩
        | none => .ok ⟨out.bytes, t.name :: out.diagnostics⟩

/-- Program text to bytes: the parser, then the encoder, so that a malformed integer anywhere is answered before any wrong
operand count (DESIGN CHOICE, log entry 12). -/
def assembleText (text : Text) : Except AsmError AsmOutput :=
  match parseProgram text with
  | .ok ts => assemble ts
  | .error e => .error e

/-! ## The disassembler -/

/-- An assembler line: the name and the operands, with `;` between them (R64). -/
def printLine (name : Text) (operands : List Nat) : Text :=
  operands.foldl (fun line v => line ++ ';' :: printNat v) name

/-- The spelling of a word: the assembler line of its decoded fields in decimal, B, C, D in order; a word with an
unrecognized opcode has none (R65, R69). -/
def disassemble (w : InstrWord) : Option Text :=
  match decodeWord w with
  | .loadConst rd const => some (printLine nameLoadConst [rd.val, const.toNat])
  | .readValue rbase rd off => some (printLine nameReadValue [rbase.val, rd.val, off.toNat])
  | .writeValue rdata rbase off => some (printLine nameWriteValue [rdata.val, rbase.val, off.toNat])
  | .greaterOrEqual raddr memaddr rleft =>
    some (printLine nameGreaterOrEqual [raddr.val, memaddr.toNat, rleft.val])
  | .unrecognized0 => none
  | .unrecognized1 => none
  | .unrecognized2 => none
  | .unrecognized4 => none
  | .unrecognized6 => none
  | .unrecognized7 => none
  | .unrecognized8 => none
  | .unrecognized9 => none
  | .unrecognized11 => none
  | .unrecognized12 => none
  | .unrecognized13 => none
  | .unrecognized15 => none

end Sys2Proof.Machine
end

