-- ==== Sys2Proof/Machine/Reference.lean ====
section
/-! DEFINITION. Rule R131 transcribed a second time, line by line and without the model's instructions or words: the source's
machine on natural numbers, for a register width that is a parameter. `step` is held against it (a refinement), and
R5 ("XLEN is not observable") is stated on it, since it has every XLEN and the source's unbounded integers. -/

namespace Sys2Proof.Machine

/-- The `(x, mem, ip)` of R131, its values natural numbers. It is no part of the machine's state. -/
structure RefState where
  x : Nat → Nat
  mem : Nat → Nat
  ip : Nat

/-- A value as a register or cell of the given width holds it: modulo `2^XLEN`, or, with `none`, the source's unbounded
integer (R4, R5). -/
def refFit (xlen : Option Nat) (v : Nat) : Nat :=
  match xlen with
  | none => v
  | some n => v % 2 ^ n

/-- The slice `w[hi:lo]`, `(w >> lo) mod 2^(hi-lo+1)` (R8). -/
def refSlice (w hi lo : Nat) : Nat :=
  w / 2 ^ lo % 2 ^ (hi - lo + 1)

/-- `f[i] <- v`. -/
def refSet (f : Nat → Nat) (i v : Nat) : Nat → Nat :=
  fun j => if j = i then v else f j

/-- The word as the sum of `b[k] * 2^(8k)` (R8, R30). -/
def refWord : List Byte → Nat
  | [] => 0
  | b :: bs => b.toNat + 256 * refWord bs

/-- The effect of the word `w` in R131, before `pc <- pc + 8`. -/
def refEffect (xlen : Option Nat) (w : Nat) (r : RefState) : RefState :=
  if refSlice w 3 0 = 14 then
    { r with x := refSet r.x (refSlice w 9 4) (refFit xlen (refSlice w 30 10)) }
  else if refSlice w 3 0 = 5 then
    if r.x (refSlice w 9 4) + refSlice w 21 16 < 65536 then
      { r with x := refSet r.x (refSlice w 15 10) (refFit xlen (r.mem (r.x (refSlice w 9 4) + refSlice w 21 16))) }
    else r
  else if refSlice w 3 0 = 3 then
    if r.x (refSlice w 15 10) + refSlice w 21 16 < 65536 then
      { r with mem := refSet r.mem (r.x (refSlice w 15 10) + refSlice w 21 16) (refFit xlen (r.x (refSlice w 9 4))) }
    else r
  else if refSlice w 3 0 = 10 then
    if refSlice w 37 10 < 65536 ∧ r.x (refSlice w 9 4) < 65536 then
      { r with mem := refSet r.mem (r.x (refSlice w 9 4))
                        (if r.mem (refSlice w 37 10) ≤ r.x (refSlice w 43 38) then 1 else 0) }
    else r
  else r

/-- `step` of R131, defined when 8 bytes remain. -/
def refStep (xlen : Option Nat) (stream : List Byte) (r : RefState) : RefState :=
  let r' := refEffect xlen (refWord ((stream.drop r.ip).take 8)) r
  { r' with ip := r'.ip + 8 }

/-- At most `k` turns of R131's loop "while ip + 8 <= STREAM_LEN do step". -/
def refLoop (xlen : Option Nat) (stream : List Byte) : Nat → RefState → RefState
  | 0, r => r
  | k + 1, r => if r.ip + 8 ≤ stream.length then refLoop xlen stream k (refStep xlen stream r) else r

/-- The start of R131's run: `x[0..63] <- 0; mem[0..65535] <- 0; ip <- 0`. -/
def refReset : RefState :=
  { x := fun _ => 0, mem := fun _ => 0, ip := 0 }

/-- A state of the model read as the reference's natural numbers. -/
def State.toRef (s : State) : RefState :=
  { x := fun i => if h : i < 64 then (readReg s ⟨i, h⟩).toNat else 0
    mem := fun a => (memRead s a).toNat
    ip := s.ip }

end Sys2Proof.Machine
end

