-- ==== Sys2Proof/Safety.lean ====
section
/-! DEFINITION. The terms claims use: what it is for a step to complete, the invariants of a state, and where a value of a
run can come from. -/

namespace Sys2Proof.Machine

/-- The invariant of every run: the memory keeps its canonical form, `ip` is a multiple of 8 (R14, R32), and `ip` has not
passed the end of the stream (R15). A state a program can be in meets it; the type of `State` also holds states no run
reaches. -/
structure State.Inv (s : State) : Prop where
  memCanonical : s.mem.wf = true
  ipAligned : s.ip % 8 = 0
  ipInStream : s.ip ≤ s.stream.length

/-- Every register and every cell holds a value below `bound` (R5, with `bound = 2^21`). -/
structure State.ValuesBelow (bound : Nat) (s : State) : Prop where
  regs : ∀ r, (readReg s r).toNat < bound
  cells : ∀ a, (memRead s a).toNat < bound

/-- `v` is the constant of a load-const among the first `k` words of the stream (R81). -/
def LoadedBefore (stream : List Byte) (k : Nat) (v : Word) : Prop :=
  ∃ j rd const, j < k ∧ Config.wordBytes * j + Config.wordBytes ≤ stream.length ∧
    decodeWord (wordAt stream j) = .loadConst rd const ∧ v = constValue const

/-- The registers an instruction reads (R13's table). -/
def readRegs : Instr → List RegIdx
  | .loadConst _ _ => []
  | .readValue rbase _ _ => [rbase]
  | .writeValue rdata rbase _ => [rdata, rbase]
  | .greaterOrEqual raddr _ rleft => [raddr, rleft]
  | .unrecognized0 => []
  | .unrecognized1 => []
  | .unrecognized2 => []
  | .unrecognized4 => []
  | .unrecognized6 => []
  | .unrecognized7 => []
  | .unrecognized8 => []
  | .unrecognized9 => []
  | .unrecognized11 => []
  | .unrecognized12 => []
  | .unrecognized13 => []
  | .unrecognized15 => []

/-- The instructions of the no-op slots: the twelve unrecognized opcodes (R60, R105). -/
def noOpInstrs : List Instr :=
  [.unrecognized0, .unrecognized1, .unrecognized2, .unrecognized4, .unrecognized6, .unrecognized7,
   .unrecognized8, .unrecognized9, .unrecognized11, .unrecognized12, .unrecognized13, .unrecognized15]

end Sys2Proof.Machine
end

