-- ==== Sys2Proof/Certificates/Slice0/Obligations.lean ====
section
/-! DEFINITION. The statements for the provers, from the spec's numbered rules. A `(readReg s r).toNat + off.toNat` is the
address of the register-plus-offset form as the rules write it; `w.toNat / 2 ^ lo % 2 ^ len` is the slice `w[lo+len-1:lo]`
of rule R8. -/

open Sys2Proof Sys2Proof.Machine

/-! ## Encoding -/

/-- R30: the word is the little-endian sum of its 8 bytes, and bit `i` of it is bit `i mod 8` of byte `i div 8`. -/
def Obligations.FetchedWordIsLittleEndianSum : Prop :=
  ∀ b0 b1 b2 b3 b4 b5 b6 b7 : Byte,
    (wordOfBytes [b0, b1, b2, b3, b4, b5, b6, b7]).toNat =
      b0.toNat + b1.toNat * 2 ^ 8 + b2.toNat * 2 ^ 16 + b3.toNat * 2 ^ 24 + b4.toNat * 2 ^ 32 + b5.toNat * 2 ^ 40
        + b6.toNat * 2 ^ 48 + b7.toNat * 2 ^ 56 ∧
    ∀ i, i < 64 → (wordOfBytes [b0, b1, b2, b3, b4, b5, b6, b7]).getLsbD i =
      ([b0, b1, b2, b3, b4, b5, b6, b7].getD (i / 8) 0).getLsbD (i % 8)

/-- R51: the word fetched is that of the 8 stream bytes from `ip` on; it is formed by shifts and ors, and every field is read
from it by shift and mask. -/
def Obligations.UnmarshallerShiftsAndMasks : Prop :=
  (∀ s : State, s.ip + 8 ≤ s.stream.length →
    fetchWord s = wordOfBytes [s.stream.getD s.ip 0, s.stream.getD (s.ip + 1) 0, s.stream.getD (s.ip + 2) 0,
      s.stream.getD (s.ip + 3) 0, s.stream.getD (s.ip + 4) 0, s.stream.getD (s.ip + 5) 0,
      s.stream.getD (s.ip + 6) 0, s.stream.getD (s.ip + 7) 0]) ∧
  (∀ b0 b1 b2 b3 b4 b5 b6 b7 : Byte,
    wordOfBytes [b0, b1, b2, b3, b4, b5, b6, b7] =
      b0.setWidth 64 ||| (b1.setWidth 64 <<< 8) ||| (b2.setWidth 64 <<< 16) ||| (b3.setWidth 64 <<< 24)
        ||| (b4.setWidth 64 <<< 32) ||| (b5.setWidth 64 <<< 40) ||| (b6.setWidth 64 <<< 48)
        ||| (b7.setWidth 64 <<< 56)) ∧
  ∀ (w : InstrWord) (start len : Nat) (h : start + len ≤ 64),
    (extractBits w start len h).setWidth 64 = (w >>> start) &&& ((1#64 <<< len) - 1#64)

/-- R63: `set_bits` in word terms, where each bit of the field lands in the 8 bytes, that the other bits stay, and the law
that ties it to `extract_bits`. For a word that is not 0 in the field they say that the field is cleared first: R63's formula
reads so, but R63 calls the clearing not stated and N9 relies on neither reading, so there the statement is the model's
reading (log entry 13, DEDUCED). -/
def Obligations.PackThenExtractCutsToField : Prop :=
  ∀ (w : InstrWord) (start len v : Nat) (h : start + len ≤ 64),
    setBits w start len v h =
        ((w &&& ~~~(((1#64 <<< len) - 1#64) <<< start))
          ||| ((BitVec.ofNat 64 v &&& ((1#64 <<< len) - 1#64)) <<< start)) ∧
    (extractBits (setBits w start len v h) start len h).toNat = v % 2 ^ len ∧
    (∀ i, i < len →
      ((bytesOfWord (setBits w start len v h)).getD ((start + i) / 8) 0).getLsbD ((start + i) % 8) = v.testBit i) ∧
    ∀ i, i < 64 → ¬ (start ≤ i ∧ i < start + len) → (setBits w start len v h).getLsbD i = w.getLsbD i

/-- R53, R54 and R62, with the layouts of R55 to R58: field A selects the arm, and each operand is the slice its layout names.
That an unrecognized word decodes to a constructor of its own opcode is the model's choice (log entry 11): the spec has one
no-op for all twelve. -/
def Obligations.DecodeFollowsTheLayouts : Prop :=
  ∀ w : InstrWord,
    (w.toNat % 16 = 14 → ∃ rd const, decodeWord w = .loadConst rd const ∧
      rd.val = w.toNat / 2 ^ 4 % 2 ^ 6 ∧ const.toNat = w.toNat / 2 ^ 10 % 2 ^ 21) ∧
    (w.toNat % 16 = 5 → ∃ rbase rd off, decodeWord w = .readValue rbase rd off ∧
      rbase.val = w.toNat / 2 ^ 4 % 2 ^ 6 ∧ rd.val = w.toNat / 2 ^ 10 % 2 ^ 6 ∧
      off.toNat = w.toNat / 2 ^ 16 % 2 ^ 6) ∧
    (w.toNat % 16 = 3 → ∃ rdata rbase off, decodeWord w = .writeValue rdata rbase off ∧
      rdata.val = w.toNat / 2 ^ 4 % 2 ^ 6 ∧ rbase.val = w.toNat / 2 ^ 10 % 2 ^ 6 ∧
      off.toNat = w.toNat / 2 ^ 16 % 2 ^ 6) ∧
    (w.toNat % 16 = 10 → ∃ raddr memaddr rleft, decodeWord w = .greaterOrEqual raddr memaddr rleft ∧
      raddr.val = w.toNat / 2 ^ 4 % 2 ^ 6 ∧ memaddr.toNat = w.toNat / 2 ^ 10 % 2 ^ 28 ∧
      rleft.val = w.toNat / 2 ^ 38 % 2 ^ 6) ∧
    (w.toNat % 16 ≠ 14 → w.toNat % 16 ≠ 5 → w.toNat % 16 ≠ 3 → w.toNat % 16 ≠ 10 →
      decodeWord w ∈ noOpInstrs ∧ (decodeWord w).opcode = w.toNat % 16)

/-- R59: two words that agree on the bits their layout uses decode alike, so the bits above are ignored. It rests on the
spec's decision D12 (log entry 7). -/
def Obligations.UnusedBitsAreIgnored : Prop :=
  ∀ w w' : InstrWord,
    w.toNat % 2 ^ usedBits (w.toNat % 16) = w'.toNat % 2 ^ usedBits (w.toNat % 16) → decodeWord w = decodeWord w'

/-- Decode and encode agree: the bytes of an instruction, whatever follows them, decode to it, every operand at every value,
and what follows is handed back. -/
def Obligations.DecodeOfEncodeIsTheInstruction : Prop :=
  ∀ (i : Instr) (rest : List Byte), decode (encode i ++ rest) = .ok (i, rest)

/-- The other direction: encoding what a word decodes to gives the word back exactly when the word is canonical (R59). -/
def Obligations.EncodeOfDecodeIsTheCanonicalWord : Prop :=
  ∀ w : InstrWord, encodeWord (decodeWord w) = w ↔ canonicalWord w = true

/-- The four encoder vectors of the source, and the two words R60 names, decode as the spec says. -/
def Obligations.SpecVectorsDecode : Prop :=
  decode [0x3E, 0xC7, 0x0C, 0x00, 0x00, 0x00, 0x00, 0x00] = .ok (.loadConst 51 817, []) ∧
  decode [0xA5, 0xBB, 0x17, 0x00, 0x00, 0x00, 0x00, 0x00] = .ok (.readValue 58 46 23, []) ∧
  decode [0xC3, 0xF8, 0x33, 0x00, 0x00, 0x00, 0x00, 0x00] = .ok (.writeValue 12 62 51, []) ∧
  decode [0x2A, 0xAC, 0x0C, 0x00, 0xC0, 0x07, 0x00, 0x00] = .ok (.greaterOrEqual 2 811 31, []) ∧
  decode [0x00, 0x00, 0x00, 0x00, 0x00, 0x00, 0x00, 0x00] = .ok (.unrecognized0, []) ∧
  decode [0xFF, 0xFF, 0xFF, 0xFF, 0xFF, 0xFF, 0xFF, 0xFF] = .ok (.unrecognized15, [])

/-! ## Reset and the state -/

/-- R24: the start state of every run, and that nothing else belongs to it: a state that reads so is that state. That the
stream is a field of the state, and that `State.reset` is the start state of the empty stream, is the model's choice, not
R24's (log entry 2). -/
def Obligations.ResetLeavesEverythingZero : Prop :=
  State.reset = State.load [] ∧
  ∀ stream : List Byte,
    (∀ r, readReg (State.load stream) r = 0) ∧ (∀ a, memRead (State.load stream) a = 0) ∧
    (State.load stream).ip = 0 ∧ (State.load stream).stream = stream ∧
    (halted (State.load stream) = true ↔ stream.length < 8) ∧
    ∀ s : State, s.mem.wf = true → (∀ r, readReg s r = 0) → (∀ a, memRead s a = 0) → s.ip = 0 → s.stream = stream →
      s = State.load stream

/-- R10: registers, cells and `ip` are the whole state. The stream stands beside them because the model holds it in State: by
R10 it is a parameter of the run and no state (log entry 2, DESIGN CHOICE). Canonical memories that read alike are equal,
so two states that show the same are the same. -/
def Obligations.StatesThatReadAlikeAreEqual : Prop :=
  ∀ s t : State, s.mem.wf = true → t.mem.wf = true → (∀ r, readReg s r = readReg t r) →
    (∀ a, memRead s a = memRead t a) → s.ip = t.ip → s.stream = t.stream → s = t

/-! ## The instructions -/

/-- R80: load-const's encoding, its result for every register and constant, and its frame. -/
def Obligations.LoadConstWritesItsConstantField : Prop :=
  (∀ w : InstrWord, w.toNat % 16 = 14 → ∃ rd const, decodeWord w = .loadConst rd const ∧
    rd.val = w.toNat / 2 ^ 4 % 2 ^ 6 ∧ const.toNat = w.toNat / 2 ^ 10 % 2 ^ 21) ∧
  ∀ rd const s, ∃ t, exec (.loadConst rd const) s = .next t ∧
    (readReg t rd).toNat = const.toNat ∧ (∀ r, r ≠ rd → readReg t r = readReg s r) ∧
    (∀ a, memRead t a = memRead s a) ∧ t.ip = s.ip + 8 ∧ t.stream = s.stream

/-- R85: read-value's encoding, its result in and out of bounds, and its frame. All reads are of the state before. -/
def Obligations.ReadValueLoadsTheCellInBounds : Prop :=
  (∀ w : InstrWord, w.toNat % 16 = 5 → ∃ rbase rd off, decodeWord w = .readValue rbase rd off ∧
    rbase.val = w.toNat / 2 ^ 4 % 2 ^ 6 ∧ rd.val = w.toNat / 2 ^ 10 % 2 ^ 6 ∧
    off.toNat = w.toNat / 2 ^ 16 % 2 ^ 6) ∧
  ∀ rbase rd off s, ∃ t, exec (.readValue rbase rd off) s = .next t ∧
    ((readReg s rbase).toNat + off.toNat < 65536 →
      readReg t rd = memRead s ((readReg s rbase).toNat + off.toNat)) ∧
    (65536 ≤ (readReg s rbase).toNat + off.toNat → readReg t rd = readReg s rd) ∧
    (∀ r, r ≠ rd → readReg t r = readReg s r) ∧ (∀ a, memRead t a = memRead s a) ∧
    t.ip = s.ip + 8 ∧ t.stream = s.stream

/-- R86: write-value's encoding, the cell it stores to and the value stored, in and out of bounds, and its frame. -/
def Obligations.WriteValueStoresTheRegisterInBounds : Prop :=
  (∀ w : InstrWord, w.toNat % 16 = 3 → ∃ rdata rbase off, decodeWord w = .writeValue rdata rbase off ∧
    rdata.val = w.toNat / 2 ^ 4 % 2 ^ 6 ∧ rbase.val = w.toNat / 2 ^ 10 % 2 ^ 6 ∧
    off.toNat = w.toNat / 2 ^ 16 % 2 ^ 6) ∧
  ∀ rdata rbase off s, ∃ t, exec (.writeValue rdata rbase off) s = .next t ∧
    (∀ addr, addr = (readReg s rbase).toNat + off.toNat →
      (addr < 65536 → memRead t addr = readReg s rdata) ∧
      (65536 ≤ addr → memRead t addr = memRead s addr) ∧
      ∀ b, b ≠ addr → memRead t b = memRead s b) ∧
    (∀ r, readReg t r = readReg s r) ∧ t.ip = s.ip + 8 ∧ t.stream = s.stream

/-- R95: greater-or-equal's encoding, the cell it writes and the 1 or 0 written, when it writes at all, and its frame. -/
def Obligations.GreaterOrEqualStoresTheComparison : Prop :=
  (∀ w : InstrWord, w.toNat % 16 = 10 → ∃ raddr memaddr rleft, decodeWord w = .greaterOrEqual raddr memaddr rleft ∧
    raddr.val = w.toNat / 2 ^ 4 % 2 ^ 6 ∧ memaddr.toNat = w.toNat / 2 ^ 10 % 2 ^ 28 ∧
    rleft.val = w.toNat / 2 ^ 38 % 2 ^ 6) ∧
  ∀ raddr memaddr rleft s, ∃ t, exec (.greaterOrEqual raddr memaddr rleft) s = .next t ∧
    (∀ dest, dest = (readReg s raddr).toNat →
      (memaddr.toNat < 65536 → dest < 65536 →
        (memRead t dest).toNat = if (memRead s memaddr.toNat).toNat ≤ (readReg s rleft).toNat then 1 else 0) ∧
      (¬ (memaddr.toNat < 65536 ∧ dest < 65536) → memRead t dest = memRead s dest) ∧
      ∀ b, b ≠ dest → memRead t b = memRead s b) ∧
    (∀ r, readReg t r = readReg s r) ∧ t.ip = s.ip + 8 ∧ t.stream = s.stream

/-- R96: with either address out of bounds greater-or-equal is a no-op; that it is so with only the literal address out of
bounds is the spec's decision D5 (log entry 6). With both in bounds the destination holds 0 or 1 afterwards. -/
def Obligations.GreaterOrEqualWritesOnlyWhenBothInBounds : Prop :=
  ∀ raddr memaddr rleft s,
    (65536 ≤ memaddr.toNat ∨ 65536 ≤ (readReg s raddr).toNat →
      exec (.greaterOrEqual raddr memaddr rleft) s = .next { s with ip := s.ip + 8 }) ∧
    (memaddr.toNat < 65536 → (readReg s raddr).toNat < 65536 →
      ∃ t, exec (.greaterOrEqual raddr memaddr rleft) s = .next t ∧
        (memRead t (readReg s raddr).toNat = 0 ∨ memRead t (readReg s raddr).toNat = 1))

/-- R105, R106: the twelve unrecognized opcodes are what every other value of field A decodes to, and each is a step to the
same state with `ip + 8`. -/
def Obligations.UnrecognizedOpcodesOnlyAdvance : Prop :=
  (∀ w : InstrWord, w.toNat % 16 ≠ 14 → w.toNat % 16 ≠ 5 → w.toNat % 16 ≠ 3 → w.toNat % 16 ≠ 10 →
    decodeWord w ∈ noOpInstrs) ∧
  ∀ i ∈ [Instr.unrecognized0, .unrecognized1, .unrecognized2, .unrecognized4, .unrecognized6, .unrecognized7,
      .unrecognized8, .unrecognized9, .unrecognized11, .unrecognized12, .unrecognized13, .unrecognized15],
    ∀ s, exec i s = .next { s with ip := s.ip + 8 }

/-- R37, R110: a load or a store at an address of 65536 or more is skipped whole and never aliases a cell. -/
def Obligations.OutOfBoundsAccessesAreSkipped : Prop :=
  ∀ r q off s, 65536 ≤ (readReg s r).toNat + off.toNat →
    exec (.readValue r q off) s = .next { s with ip := s.ip + 8 } ∧
    exec (.writeValue q r off) s = .next { s with ip := s.ip + 8 }

/-- R88: a load of the address a store has written gives the value stored, as long as the cell keeps it; a store out of
bounds reaches no cell that any load could read. -/
def Obligations.StoreThenLoadReturnsTheValue : Prop :=
  ∀ rdata rbase off s t, exec (.writeValue rdata rbase off) s = .next t →
    ((readReg s rbase).toNat + off.toNat < 65536 →
      ∀ rbase' rd off' u, (readReg u rbase').toNat + off'.toNat = (readReg s rbase).toNat + off.toNat →
        memRead u ((readReg s rbase).toNat + off.toNat) = memRead t ((readReg s rbase).toNat + off.toNat) →
        ∃ v, exec (.readValue rbase' rd off') u = .next v ∧ readReg v rd = readReg s rdata) ∧
    (65536 ≤ (readReg s rbase).toNat + off.toNat → ∀ a, memRead t a = memRead s a)

/-- R35: storing the value a cell already holds changes nothing, in the state as data. -/
def Obligations.StoringTheHeldValueChangesNothing : Prop :=
  ∀ rdata rbase off s, s.mem.wf = true →
    memRead s ((readReg s rbase).toNat + off.toNat) = readReg s rdata →
    exec (.writeValue rdata rbase off) s = .next { s with ip := s.ip + 8 }

/-! ## Rules of the whole machine -/

/-- R13, the writes: a register changes only under load-const or an in-bounds read-value that names it as destination. -/
def Obligations.OnlyLoadsChangeARegister : Prop :=
  ∀ i s t r, exec i s = .next t → readReg t r ≠ readReg s r →
    (∃ const, i = .loadConst r const) ∨
    ∃ rbase off, i = .readValue rbase r off ∧ (readReg s rbase).toNat + off.toNat < 65536

/-- R13, the reads: an instruction depends on no register but those its row names. Two states that agree on those and on the
cells agree afterwards on every cell, and in every register that the instruction did not leave alone in both. -/
def Obligations.OnlyTheNamedRegistersAreRead : Prop :=
  ∀ i s s' t t', (∀ r ∈ readRegs i, readReg s r = readReg s' r) → (∀ a, memRead s a = memRead s' a) →
    exec i s = .next t → exec i s' = .next t' →
    (∀ a, memRead t a = memRead t' a) ∧
    ∀ r, readReg t r = readReg t' r ∨ (readReg t r = readReg s r ∧ readReg t' r = readReg s' r)

/-- R33, the data writes: a cell changes only under an in-bounds write-value to it, or under a greater-or-equal with both
addresses in bounds and this one the destination. -/
def Obligations.OnlyStoresChangeACell : Prop :=
  ∀ i s t a, exec i s = .next t → memRead t a ≠ memRead s a →
    a < 65536 ∧
    ((∃ rdata rbase off, i = .writeValue rdata rbase off ∧ a = (readReg s rbase).toNat + off.toNat) ∨
      ∃ raddr memaddr rleft, i = .greaterOrEqual raddr memaddr rleft ∧ memaddr.toNat < 65536 ∧
        a = (readReg s raddr).toNat)

/-- R130: an instruction has one effect, and only the effect its form names. A load-const and a read-value may change their
destination register alone; a write-value the cell at base plus offset alone, a greater-or-equal the cell at its
register's value alone, each if that address is below 65536; a no-op slot nothing. -/
def Obligations.OneEffectPerInstruction : Prop :=
  (∀ rd const s, ∃ t, exec (.loadConst rd const) s = .next t ∧
    (∀ q, q ≠ rd → readReg t q = readReg s q) ∧ ∀ a, memRead t a = memRead s a) ∧
  (∀ rbase rd off s, ∃ t, exec (.readValue rbase rd off) s = .next t ∧
    (∀ q, q ≠ rd → readReg t q = readReg s q) ∧ ∀ a, memRead t a = memRead s a) ∧
  (∀ rdata rbase off s, ∃ t, exec (.writeValue rdata rbase off) s = .next t ∧
    (∀ b, b ≠ baseOffsetAddr s rbase off ∨ 65536 ≤ b → memRead t b = memRead s b) ∧
    ∀ r, readReg t r = readReg s r) ∧
  (∀ raddr memaddr rleft s, ∃ t, exec (.greaterOrEqual raddr memaddr rleft) s = .next t ∧
    (∀ b, b ≠ registerAddr s raddr ∨ 65536 ≤ b → memRead t b = memRead s b) ∧
    ∀ r, readReg t r = readReg s r) ∧
  ∀ i ∈ noOpInstrs, ∀ s, ∃ t, exec i s = .next t ∧
    (∀ r, readReg t r = readReg s r) ∧ ∀ a, memRead t a = memRead s a

/-- R17: every instruction, and every step of a machine that is not halted, ends with `ip + 8`, whatever the word holds and
whether or not its accesses were in bounds. -/
def Obligations.EveryStepAdvancesByEight : Prop :=
  (∀ i s, ∃ t, exec i s = .next t ∧ t.ip = s.ip + 8) ∧
  ∀ s : State, s.ip + 8 ≤ s.stream.length → ∃ t, step s = .next t ∧ t.ip = s.ip + 8

/-- A step runs the decoded instruction: when the bytes at `ip` decode to `i`, the step is `exec` of `i`, and nothing is
added around it; when too few bytes are left to decode, the step answers the same state (log entry 3). -/
def Obligations.StepRunsTheDecodedInstruction : Prop :=
  ∀ s,
    (∀ i rest, decode (s.stream.drop s.ip) = .ok (i, rest) → step s = exec i s) ∧
    (∀ e, decode (s.stream.drop s.ip) = .error e → step s = .next s)

/-- The model's loading of one word: whatever 64-bit number is placed, the next step runs what the decoder reads from it,
and the placing changes the stream alone. -/
def Obligations.PlacedWordRunsNext : Prop :=
  ∀ (s : State) (w : Nat), ∃ i, decodeTableWord 64 w = some i ∧
    step (s.withFetchWord 64 w) = exec i (s.withFetchWord 64 w) ∧
    (s.withFetchWord 64 w).x = s.x ∧ (s.withFetchWord 64 w).mem = s.mem ∧ (s.withFetchWord 64 w).ip = s.ip

/-- R111: execution is total. Every instruction and every step in every state answers a next state, and the run of every byte
sequence halts after exactly `STREAM_LEN div 8` steps and gives a result. -/
def Obligations.ExecutionIsTotal : Prop :=
  (∀ i s, ∃ t, exec i s = .next t) ∧ (∀ s, ∃ t, step s = .next t) ∧
  ∀ stream : List Byte,
    (∀ k, k < stream.length / 8 → ∃ t, run k (State.load stream) = .next t ∧ halted t = false) ∧
    (∃ t, run (stream.length / 8) (State.load stream) = .next t ∧ halted t = true) ∧
    ∃ result, execute stream = some result

/-- R14: `ip` in a run, and the halted machine, whose state never changes again (as a step to itself: log entry 3). -/
def Obligations.HaltedMachineNeverChanges : Prop :=
  (∀ s, halted s = true ↔ s.stream.length < s.ip + 8) ∧
  (∀ s k, halted s = true → run k s = .next s) ∧
  ∀ stream k t, run k (State.load stream) = .next t → t.ip % 8 = 0 ∧ t.ip ≤ stream.length

/-- R122, R128: after `k` steps of a run, up to `STREAM_LEN div 8`, `ip` is `8k`, and the machine is halted exactly at the
last of them. -/
def Obligations.RunHaltsAfterExactlyItsWords : Prop :=
  ∀ (stream : List Byte) k, k ≤ stream.length / 8 →
    ∃ t, run k (State.load stream) = .next t ∧ t.ip = 8 * k ∧ (halted t = true ↔ k = stream.length / 8)

/-- R15: a trailing partial instruction is discarded: the bytes after the last whole word do not matter. -/
def Obligations.TrailingBytesAreDiscarded : Prop :=
  ∀ stream tail : List Byte, stream.length % 8 = 0 → tail.length < 8 →
    execute (stream ++ tail) = execute stream

/-- R41: no store reaches the stream, and the `k`-th word fetched in a run is the `k`-th word the run began with. -/
def Obligations.FetchSeesTheStreamTheRunBeganWith : Prop :=
  ∀ (stream : List Byte) k t, run k (State.load stream) = .next t →
    t.stream = stream ∧ (halted t = false → fetchWord t = wordAt stream k)

/-- The invariant every step keeps, from every state that meets it. -/
def Obligations.StepKeepsTheInvariant : Prop :=
  ∀ s t : State, s.Inv → step s = .next t → t.Inv

/-- Every start state meets the invariant. -/
def Obligations.StartStatesMeetTheInvariant : Prop :=
  ∀ stream : List Byte, (State.load stream).Inv ∧ State.reset.Inv

/-- R5, the invariant behind it: no step makes a value of 2^21 or more where there was none. -/
def Obligations.StepKeepsValuesBelowTheConstantRange : Prop :=
  ∀ s t : State, s.ValuesBelow (2 ^ 21) → step s = .next t → t.ValuesBelow (2 ^ 21)

/-- R5: from reset, a machine of any width of at least 21 bits runs as the source's unbounded integers do, and every value
stays below 2^21. It speaks of the reference transcription alone, which has every width and is the model's own (log entry
17, DESIGN CHOICE); of the model's step, `StepKeepsValuesBelowTheConstantRange` says the like. -/
def Obligations.WidthIsNotObservableFromReset : Prop :=
  ∀ n, 21 ≤ n → ∀ (stream : List Byte) k,
    refLoop (some n) stream k refReset = refLoop none stream k refReset ∧
    (∀ r, (refLoop none stream k refReset).x r < 2 ^ 21) ∧ ∀ a, (refLoop none stream k refReset).mem a < 2 ^ 21

/-- R131, one step: from every state that is not halted, the model's step is the step of the rule's pseudocode, as
the model transcribes it (log entry 17). -/
def Obligations.StepRefinesTheReferenceStep : Prop :=
  ∀ s, halted s = false → ∃ t, step s = .next t ∧ t.toRef = refStep none s.stream s.toRef

/-- R131, the run: the result of `execute` is the pair the rule's `run` returns, and the rule's loop has ended there. The
rule's pseudocode is taken as the model transcribes it (log entry 17). -/
def Obligations.ExecuteRefinesTheReferenceRun : Prop :=
  ∀ (stream : List Byte) k, stream.length / 8 ≤ k →
    stream.length < (refLoop none stream k refReset).ip + 8 ∧
    ∃ s : State, execute stream = some (s.x, s.mem) ∧ s.toRef = refLoop none stream k refReset

/-- R81, one step: where every value is one of a set that holds 0, 1 and, if the word at `ip` is a load-const, its constant,
every value is one of the set afterwards. -/
def Obligations.StepAddsNoValueButTheConstant : Prop :=
  ∀ (S : Word → Prop) (s : State), S 0 → S 1 →
    (∀ rd const, s.ip + 8 ≤ s.stream.length → decodeWord (fetchWord s) = .loadConst rd const → S (constValue const)) →
    (∀ r, S (readReg s r)) → (∀ a, S (memRead s a)) →
    ∃ t, step s = .next t ∧ (∀ r, S (readReg t r)) ∧ ∀ a, S (memRead t a)

/-- R81, every run: load-const is the only source of values other than 0 and 1. -/
def Obligations.ValuesComeFromExecutedConstants : Prop :=
  ∀ (stream : List Byte) k t, run k (State.load stream) = .next t →
    (∀ r, readReg t r = 0 ∨ readReg t r = 1 ∨ LoadedBefore stream k (readReg t r)) ∧
    ∀ a, memRead t a = 0 ∨ memRead t a = 1 ∨ LoadedBefore stream k (memRead t a)

/-! ## The toolchain -/

/-- R82, R89, R99: the word of each assembler line by its operands, each cut to its field. -/
def Obligations.AssembledWordsFollowTheFormulas : Prop :=
  (∀ b c : Nat, assemble [⟨nameLoadConst, [b, c]⟩] =
    .ok ⟨bytesOfWord (BitVec.ofNat 64 (14 ||| (b % 64) <<< 4 ||| (c % 2 ^ 21) <<< 10)), []⟩) ∧
  (∀ b c d : Nat, assemble [⟨nameReadValue, [b, c, d]⟩] =
    .ok ⟨bytesOfWord (BitVec.ofNat 64 (5 ||| (b % 64) <<< 4 ||| (c % 64) <<< 10 ||| (d % 64) <<< 16)), []⟩) ∧
  (∀ b c d : Nat, assemble [⟨nameWriteValue, [b, c, d]⟩] =
    .ok ⟨bytesOfWord (BitVec.ofNat 64 (3 ||| (b % 64) <<< 4 ||| (c % 64) <<< 10 ||| (d % 64) <<< 16)), []⟩) ∧
  ∀ b c d : Nat, assemble [⟨nameGreaterOrEqual, [b, c, d]⟩] =
    .ok ⟨bytesOfWord (BitVec.ofNat 64 (10 ||| (b % 64) <<< 4 ||| (c % 2 ^ 28) <<< 10 ||| (d % 64) <<< 38)), []⟩

/-- R66, R67: assembling two sequences after each other concatenates their bytes, and fails when either fails; an unknown
operation name gives no bytes. That the diagnostics are a list, and an unknown name's diagnostic the name itself, is the
model's choice: the text of a diagnostic is not given (N14; log entry 12). -/
def Obligations.AssemblyConcatenates : Prop :=
  (∀ ts us out out', assemble ts = .ok out → assemble us = .ok out' →
    assemble (ts ++ us) = .ok ⟨out.bytes ++ out'.bytes, out.diagnostics ++ out'.diagnostics⟩) ∧
  (∀ ts us e, assemble ts = .error e ∨ assemble us = .error e → ∃ e', assemble (ts ++ us) = .error e') ∧
  ∀ t : AsmTuple, t.name ∉ [nameLoadConst, nameReadValue, nameWriteValue, nameGreaterOrEqual] →
    assemble [t] = .ok ⟨[], [t.name]⟩

/-- R67: one line that does not parse, because an operand is no base-10 integer, fails the whole assembly. R67 says so of a
malformed integer operand; that it is so on a line with an unknown name too, that an empty token or a leading plus sign is
malformed, and where a line ends and which lines are blank, are the model's choices (log entry 12, DESIGN CHOICE). -/
def Obligations.MalformedLineFailsTheAssembly : Prop :=
  ∀ text line e, line ∈ splitText '\n' text → parseLine line = .error e →
    ∃ e', assembleText text = .error e'

/-- R107: every word of an assembled program has one of the four opcodes, and the program is whole words. -/
def Obligations.AssemblerEmitsOnlyTheFourOpcodes : Prop :=
  ∀ ts out, assemble ts = .ok out →
    out.bytes.length % 8 = 0 ∧
    ∀ j, j < out.bytes.length / 8 →
      canonicalWord (wordAt out.bytes j) = true ∧ decodeWord (wordAt out.bytes j) ∉ noOpInstrs

/-- R69: a word with an unrecognized opcode has no spelling; every other word has one, and assembling it gives the word's 8
bytes exactly when the word was canonical. The spelling is the spec's decision D15 (e), and the text's conventions are
those of log entry 12 (DESIGN CHOICE). -/
def Obligations.AssemblyOfDisassemblyIsTheCanonicalWord : Prop :=
  ∀ w : InstrWord,
    (disassemble w = none ↔ decodeWord w ∈ noOpInstrs) ∧
    ∀ text, disassemble w = some text → (assembleText text = .ok ⟨bytesOfWord w, []⟩ ↔ canonicalWord w = true)
end

