-- ==== Sys2Proof/Laws/Assembler.lean ====
section
/-! SUPPORT. The text side of the assembler: splitting, trimming, and that a printed number parses back to itself. -/

namespace Sys2Proof.Machine

/-! ## Mapping a function that can fail -/

/-- Every element succeeds: so does the whole, with the values in order. -/
theorem mapM_ok {α β : Type} {f : α → Except AsmError β} {g : α → β} {l : List α} (h : ∀ a ∈ l, f a = .ok (g a)) :
    l.mapM f = .ok (l.map g) := by
  induction l with
  | nil => rfl
  | cons a l ih =>
    rw [List.mapM_cons, h a (by simp), ih fun b hb => h b (by simp [hb])]
    rfl

/-- One element fails: so does the whole. -/
theorem mapM_error {α β : Type} {f : α → Except AsmError β} {l : List α} {a : α} {e : AsmError} (ha : a ∈ l)
    (h : f a = .error e) : ∃ e', l.mapM f = .error e' := by
  induction l with
  | nil => cases ha
  | cons b l ih =>
    rw [List.mapM_cons]
    cases hb : f b with
    | error e' => exact ⟨e', rfl⟩
    | ok v =>
      rcases List.mem_cons.1 ha with rfl | ha
      · rw [hb] at h; cases h
      · obtain ⟨e', he⟩ := ih ha
        rw [he]
        exact ⟨e', rfl⟩

/-! ## Splitting and trimming -/

theorem splitText_nil (sep : Char) : splitText sep [] = [[]] := rfl

theorem splitText_cons (sep c : Char) (t : Text) :
    splitText sep (c :: t) =
      if c = sep then [] :: splitText sep t else (splitText sep t).modifyHead (c :: ·) := rfl

theorem splitText_append {sep : Char} {t : Text} (h : sep ∉ t) (rest : Text) :
    splitText sep (t ++ sep :: rest) = t :: splitText sep rest := by
  induction t with
  | nil => simp [splitText_cons]
  | cons c cs ih =>
    rw [List.mem_cons, not_or] at h
    rw [List.cons_append, splitText_cons, if_neg (Ne.symm h.1), ih h.2, List.modifyHead_cons]

theorem splitText_of_not_mem {sep : Char} {t : Text} (h : sep ∉ t) : splitText sep t = [t] := by
  induction t with
  | nil => rfl
  | cons c cs ih =>
    rw [List.mem_cons, not_or] at h
    rw [splitText_cons, if_neg (Ne.symm h.1), ih h.2, List.modifyHead_cons]

theorem dropWhile_isBlank {t : Text} (h : ∀ c ∈ t, isBlank c = false) : t.dropWhile isBlank = t := by
  cases t with
  | nil => rfl
  | cons c cs => rw [List.dropWhile_cons_of_neg (by simp [h c (by simp)])]

theorem trimText_of_no_blank {t : Text} (h : ∀ c ∈ t, isBlank c = false) : trimText t = t := by
  rw [trimText, dropWhile_isBlank h, dropWhile_isBlank (by simpa using h), List.reverse_reverse]

/-- No separator and no white space stands in an operation name. -/
theorem opName_plain {name : Text} (h : name ∈ [nameLoadConst, nameReadValue, nameWriteValue, nameGreaterOrEqual]) :
    name ≠ [] ∧ ∀ c ∈ name, c ≠ ';' ∧ c ≠ '\n' ∧ isBlank c = false := by
  have hall : name.all (fun c => decide (c ≠ ';') && decide (c ≠ '\n') && !isBlank c) = true ∧ name ≠ [] := by
    simp only [List.mem_cons, List.not_mem_nil, or_false] at h
    rcases h with rfl | rfl | rfl | rfl <;> decide
  refine ⟨hall.2, fun c hc => ?_⟩
  have hplain := List.all_eq_true.1 hall.1 c hc
  simpa [and_assoc] using hplain

/-! ## Numerals -/

/-- The parser reads back the character the printer writes for a digit value. -/
theorem digitValue_digitChar {d : Nat} (h : d < 10) : digitValue (Nat.digitChar d) = some d := by
  revert d; decide

/-- What is no separator, no sign and no white space. -/
theorem digitChar_plain {d : Nat} (h : d < 10) :
    Nat.digitChar d ≠ ';' ∧ Nat.digitChar d ≠ '\n' ∧ Nat.digitChar d ≠ '-' ∧ isBlank (Nat.digitChar d) = false := by
  revert d; decide

theorem mapM_digitValue {ds : List Nat} (h : ∀ d ∈ ds, d < 10) : (ds.map Nat.digitChar).mapM digitValue = some ds := by
  induction ds with
  | nil => rfl
  | cons d ds ih =>
    rw [List.map_cons, List.mapM_cons, digitValue_digitChar (h d (by simp)), ih fun e he => h e (by simp [he])]
    rfl

/-- The digit values of a number: each is below 10, there is one, and they spell the number. -/
theorem numeralDigits_spec {fuel n : Nat} (h : n < fuel) :
    (∀ d ∈ numeralDigits fuel n, d < 10) ∧ numeralDigits fuel n ≠ [] ∧ numeralValue (numeralDigits fuel n) = n := by
  induction fuel generalizing n with
  | zero => omega
  | succ fuel ih =>
    rw [numeralDigits]
    split
    · next hn => simpa [numeralValue] using hn
    · obtain ⟨hlt, -, hval⟩ := ih (n := n / 10) (by omega)
      refine ⟨fun d hd => ?_, by simp, ?_⟩
      · rcases List.mem_append.1 hd with hd | hd
        · exact hlt d hd
        · rw [List.mem_singleton.1 hd]; omega
      · rw [numeralValue] at hval ⊢
        rw [List.foldl_append, hval, List.foldl_cons, List.foldl_nil]
        omega

/-- No separator, no sign and no white space stands in a printed number. -/
theorem printNat_plain {n : Nat} {c : Char} (h : c ∈ printNat n) :
    c ≠ ';' ∧ c ≠ '\n' ∧ c ≠ '-' ∧ isBlank c = false := by
  obtain ⟨d, hd, rfl⟩ := List.mem_map.1 h
  exact digitChar_plain ((numeralDigits_spec (Nat.lt_succ_self n)).1 d hd)

/-- A printed number parses back to itself. -/
theorem parseInt_printNat (n : Nat) : parseInt (printNat n) = some (n : Int) := by
  obtain ⟨hlt, hne, hval⟩ := numeralDigits_spec (Nat.lt_succ_self n)
  have hsign : (printNat n).head? ≠ some '-' := fun h => (printNat_plain (List.mem_of_head? h)).2.2.1 rfl
  have hnil : printNat n ≠ [] := by simpa [printNat] using hne
  rw [parseInt, if_neg hsign, parseNat, if_neg hnil, printNat, mapM_digitValue hlt, Option.map_some, hval]
  rfl

end Sys2Proof.Machine
end

