-- ==== Sys2Proof/Laws/Bits.lean ====
section
/-! SUPPORT. Fields, packing and bytes, bit by bit: where each bit of a field, of a packed word and of a little-endian word
comes from. Facts about values follow from these by extensionality. -/

namespace Sys2Proof

/-! ## Extraction -/

theorem extractBits_getLsbD (w : InstrWord) (start len : Nat) (h : start + len ≤ 64) (j : Nat) :
    (extractBits w start len h).getLsbD j = (decide (j < len) && w.getLsbD (start + j)) := by
  simp [extractBits]

/-- A field's value is the slice of R8: shift down, then keep the low bits. -/
theorem extractBits_toNat (w : InstrWord) (start len : Nat) (h : start + len ≤ 64) :
    (extractBits w start len h).toNat = w.toNat / 2 ^ start % 2 ^ len := by
  simp [extractBits, BitVec.extractLsb'_toNat, Nat.shiftRight_eq_div_pow]

theorem regField_val (w : InstrWord) (start : Nat) (h : start + Config.regIndexBits ≤ 64) :
    (regField w start h).val = w.toNat / 2 ^ start % 64 :=
  extractBits_toNat w start Config.regIndexBits h

theorem opcodeOf_toNat (w : InstrWord) : (opcodeOf w).toNat = w.toNat % 16 := by
  simp [opcodeOf, extractBits_toNat, Config.opcodeBits]

/-! ## Packing -/

/-- The mask of `len` ones. -/
theorem mask_getLsbD {len : Nat} (h : len ≤ 64) (i : Nat) :
    ((1#64 <<< len) - 1#64).getLsbD i = decide (i < len) := by
  have hval : ((1#64 <<< len) - 1#64).toNat = 2 ^ len - 1 := by
    have hpos : 0 < 2 ^ len := Nat.two_pow_pos len
    have hle : 2 ^ len ≤ 2 ^ 64 := Nat.pow_le_pow_right (by decide) h
    simp only [BitVec.toNat_sub, BitVec.toNat_shiftLeft, BitVec.toNat_ofNat, Nat.shiftLeft_eq]
    rcases Nat.lt_or_ge (2 ^ len) (2 ^ 64) with hlt | hge
    · omega
    · have : 2 ^ len = 2 ^ 64 := Nat.le_antisymm hle hge
      rw [this]; decide
  rw [BitVec.getLsbD, hval, Nat.testBit_two_pow_sub_one]

/-- Bit `i` of a packed word: the value's bit `i - start` inside the field, the old bit outside it (R63). -/
theorem setBits_getLsbD (w : InstrWord) (start len : Nat) (value : Int) (h : start + len ≤ 64) {i : Nat}
    (hi : i < 64) :
    (setBits w start len value h).getLsbD i =
      if start ≤ i ∧ i < start + len then (BitVec.ofInt 64 value).getLsbD (i - start) else w.getLsbD i := by
  have hm := mask_getLsbD (len := len) (by omega) (i - start)
  simp only [setBits, BitVec.getLsbD_or, BitVec.getLsbD_and, BitVec.getLsbD_not, BitVec.getLsbD_shiftLeft, hi,
    decide_true, Bool.true_and, hm]
  by_cases hs : i < start
  · have : ¬ (start ≤ i ∧ i < start + len) := by omega
    simp [hs, this]
  · by_cases hl : i < start + len
    · have h1 : i - start < len := by omega
      have h2 : start ≤ i ∧ i < start + len := by omega
      simp [hs, h1, h2]
    · have h1 : ¬ i - start < len := by omega
      have h2 : ¬ (start ≤ i ∧ i < start + len) := by omega
      simp [hs, h1, h2]

/-- A field that a packing does not touch keeps its value. -/
theorem extractBits_setBits_disjoint (w : InstrWord) {start len start' len' : Nat} (value : Int)
    (h : start + len ≤ 64) (h' : start' + len' ≤ 64) (hd : start + len ≤ start' ∨ start' + len' ≤ start) :
    extractBits (setBits w start len value h) start' len' h' = extractBits w start' len' h' := by
  apply BitVec.eq_of_getLsbD_eq
  intro j hj
  rw [extractBits_getLsbD, extractBits_getLsbD, setBits_getLsbD w start len value h (by omega), if_neg (by omega)]

/-- A packed field holds the value cut to the field. -/
theorem extractBits_setBits_same_getLsbD (w : InstrWord) (start len : Nat) (value : Int) (h : start + len ≤ 64)
    {j : Nat} (hj : j < len) :
    (extractBits (setBits w start len value h) start len h).getLsbD j = (BitVec.ofInt 64 value).getLsbD j := by
  rw [extractBits_getLsbD, setBits_getLsbD w start len value h (by omega), if_pos (by omega), Nat.add_sub_cancel_left]
  simp [hj]

/-- A word below `2^n` has every bit from `n` up at 0, and the other way round. -/
theorem toNat_lt_two_pow_iff (w : InstrWord) (n : Nat) :
    w.toNat < 2 ^ n ↔ ∀ i, n ≤ i → i < 64 → w.getLsbD i = false := by
  constructor
  · intro h i hi _
    exact Nat.testBit_eq_false_of_lt (Nat.lt_of_lt_of_le h (Nat.pow_le_pow_right (by decide) hi))
  · intro h
    apply Nat.lt_pow_two_of_testBit
    intro i hi
    by_cases hw : i < 64
    · exact h i hi hw
    · exact BitVec.getLsbD_of_ge w i (Nat.le_of_not_lt hw)

/-- A packing leaves the bits above its field as they were. -/
theorem setBits_lt (w : InstrWord) (start len : Nat) (value : Int) (h : start + len ≤ 64) {n : Nat}
    (hw : w.toNat < 2 ^ n) (hn : start + len ≤ n) : (setBits w start len value h).toNat < 2 ^ n := by
  rw [toNat_lt_two_pow_iff] at *
  intro i hi hi64
  rw [setBits_getLsbD w start len value h hi64, if_neg (by omega)]
  exact hw i hi hi64

/-! ## Bytes and words -/

/-- Bit `i` of a little-endian word is bit `i mod 8` of byte `i div 8` (R8, R30). -/
theorem wordOfBytes_getLsbD (bs : List Byte) {i : Nat} (hi : i < 64) :
    (wordOfBytes bs).getLsbD i = (bs.getD (i / 8) 0).getLsbD (i % 8) := by
  induction bs generalizing i with
  | nil => simp [wordOfBytes]
  | cons b bs ih =>
    simp only [wordOfBytes, BitVec.getLsbD_or, BitVec.getLsbD_shiftLeft, BitVec.getLsbD_setWidth, hi, decide_true,
      Bool.true_and]
    by_cases h : i < 8
    · have h0 : i / 8 = 0 := by omega
      have h1 : i % 8 = i := by omega
      simp [h, h0, h1]
    · obtain ⟨k, rfl⟩ : ∃ k, i = k + 8 := ⟨i - 8, by omega⟩
      have h0 : (k + 8) / 8 = k / 8 + 1 := by omega
      have h1 : (k + 8) % 8 = k % 8 := by omega
      rw [BitVec.getLsbD_of_ge b _ (by omega), h0, h1, Nat.add_sub_cancel, ih (by omega)]
      simp

@[simp] theorem bytesOfWord_length (w : InstrWord) : (bytesOfWord w).length = 8 := rfl

/-- Byte `k` of a word is the slice of 8 bits from bit `8k` (R66). -/
theorem bytesOfWord_getD (w : InstrWord) {k : Nat} (hk : k < 8) :
    (bytesOfWord w).getD k 0 = extractBits w (8 * k) 8 (by omega) := by
  rw [List.getD_eq_getElem _ _ (by simpa using hk)]
  exact List.getElem_ofFn _

/-- The word of a word's bytes is the word. -/
@[simp] theorem wordOfBytes_bytesOfWord (w : InstrWord) : wordOfBytes (bytesOfWord w) = w := by
  apply BitVec.eq_of_getLsbD_eq
  intro i hi
  have hi : i < 64 := hi
  rw [wordOfBytes_getLsbD _ hi, bytesOfWord_getD w (by omega), extractBits_getLsbD]
  have h1 : i % 8 < 8 := by omega
  have h2 : 8 * (i / 8) + i % 8 = i := by omega
  simp [h1, h2]

/-- The bytes of the word of 8 bytes are those bytes. -/
theorem bytesOfWord_wordOfBytes {bs : List Byte} (h : bs.length = 8) : bytesOfWord (wordOfBytes bs) = bs := by
  apply List.ext_getElem (by simp [h])
  intro k hk hk'
  have hk8 : k < 8 := by simpa using hk
  refine ((List.getD_eq_getElem _ 0 hk).symm.trans (bytesOfWord_getD _ hk8)).trans ?_
  apply BitVec.eq_of_getLsbD_eq
  intro j hj
  rw [extractBits_getLsbD, wordOfBytes_getLsbD bs (by omega)]
  have h1 : (8 * k + j) / 8 = k := by omega
  have h2 : (8 * k + j) % 8 = j := by omega
  simp [hj, h1, h2, List.getD_eq_getElem?_getD, hk']

/-! ## The decoder, arm by arm -/

theorem decodeWord_loadConst {w : InstrWord} (h : w.toNat % 16 = 14) : decodeWord w = decodeLoadConst w := by
  rw [decodeWord, opcodeOf_toNat, h]; rfl

theorem decodeWord_readValue {w : InstrWord} (h : w.toNat % 16 = 5) : decodeWord w = decodeReadValue w := by
  rw [decodeWord, opcodeOf_toNat, h]; rfl

theorem decodeWord_writeValue {w : InstrWord} (h : w.toNat % 16 = 3) : decodeWord w = decodeWriteValue w := by
  rw [decodeWord, opcodeOf_toNat, h]; rfl

theorem decodeWord_greaterOrEqual {w : InstrWord} (h : w.toNat % 16 = 10) :
    decodeWord w = decodeGreaterOrEqual w := by
  rw [decodeWord, opcodeOf_toNat, h]; rfl

/-! ## Well-formedness -/

/-- Every instruction is well formed: its operand types are its field widths (R12, R52). -/
theorem Instr.wellFormed_all (i : Instr) : i.wellFormed = true := by
  cases i with
  | loadConst rd const =>
    simp only [Instr.wellFormed, Bool.and_eq_true, decide_eq_true_eq]
    exact ⟨rd.isLt, const.isLt⟩
  | readValue rbase rd off =>
    simp only [Instr.wellFormed, Bool.and_eq_true, decide_eq_true_eq]
    exact ⟨⟨rbase.isLt, rd.isLt⟩, off.isLt⟩
  | writeValue rdata rbase off =>
    simp only [Instr.wellFormed, Bool.and_eq_true, decide_eq_true_eq]
    exact ⟨⟨rdata.isLt, rbase.isLt⟩, off.isLt⟩
  | greaterOrEqual raddr memaddr rleft =>
    simp only [Instr.wellFormed, Bool.and_eq_true, decide_eq_true_eq]
    exact ⟨⟨raddr.isLt, memaddr.isLt⟩, rleft.isLt⟩
  | unrecognized0 => rfl
  | unrecognized1 => rfl
  | unrecognized2 => rfl
  | unrecognized4 => rfl
  | unrecognized6 => rfl
  | unrecognized7 => rfl
  | unrecognized8 => rfl
  | unrecognized9 => rfl
  | unrecognized11 => rfl
  | unrecognized12 => rfl
  | unrecognized13 => rfl
  | unrecognized15 => rfl

end Sys2Proof
end

