-- ==== Sys2Proof/Laws/Memory.lean ====
section
/-! SUPPORT. The memory as a list of cells: read after write, and the canonical form, which every operation keeps and in
which equal memories are equal lists. The read laws hold of every list, canonical or not. -/

namespace Sys2Proof.Machine

@[simp] theorem Memory.read_nil (a : Nat) : Memory.read [] a = 0 := rfl

theorem Memory.read_erase_same (m : Memory) (a : Nat) : Memory.read (Memory.erase m a) a = 0 := by
  induction m with
  | nil => rfl
  | cons c m ih =>
    obtain ⟨k, u⟩ := c
    by_cases h : k = a
    · simpa [Memory.erase, h] using ih
    · simpa [Memory.erase, h, Memory.read, Ne.symm h] using ih

theorem Memory.read_erase_other (m : Memory) {a b : Nat} (hab : b ≠ a) :
    Memory.read (Memory.erase m a) b = Memory.read m b := by
  induction m with
  | nil => rfl
  | cons c m ih =>
    obtain ⟨k, u⟩ := c
    by_cases h : k = a
    · subst h
      simpa [Memory.erase, Memory.read, hab] using ih
    · by_cases hb : b = k
      · simp [Memory.erase, h, Memory.read, hb]
      · simpa [Memory.erase, h, Memory.read, hb] using ih

theorem Memory.read_insert_same (m : Memory) (a : Nat) (v : Word) (h : ∀ c ∈ m, c.1 ≠ a) :
    Memory.read (Memory.insert m a v) a = v := by
  induction m with
  | nil => simp [Memory.insert, Memory.read]
  | cons c m ih =>
    obtain ⟨k, u⟩ := c
    have hk : a ≠ k := fun e => h (k, u) (by simp) e.symm
    unfold Memory.insert
    split
    · simp [Memory.read]
    · simpa [Memory.read, hk] using ih fun c hc => h c (by simp [hc])

theorem Memory.read_insert_other (m : Memory) {a b : Nat} (v : Word) (hab : b ≠ a) :
    Memory.read (Memory.insert m a v) b = Memory.read m b := by
  induction m with
  | nil => simp [Memory.insert, Memory.read, hab]
  | cons c m ih =>
    obtain ⟨k, u⟩ := c
    unfold Memory.insert
    split
    · simp [Memory.read, hab]
    · simp [Memory.read, ih]

theorem Memory.ne_of_mem_erase {m : Memory} {a : Nat} {c : Nat × Word} (h : c ∈ Memory.erase m a) : c.1 ≠ a := by
  simp only [Memory.erase, List.mem_filter, decide_eq_true_eq] at h
  exact h.2

/-- A read of the address written gives the value written (R35). -/
@[simp] theorem Memory.read_write_same (m : Memory) (a : Nat) (v : Word) :
    Memory.read (Memory.write m a v) a = v := by
  unfold Memory.write
  split
  · next h => rw [h]; exact Memory.read_erase_same m a
  · exact Memory.read_insert_same _ a v fun _ hc => Memory.ne_of_mem_erase hc

/-- A write leaves every other address alone (R35). -/
theorem Memory.read_write_other (m : Memory) {a b : Nat} (v : Word) (hab : b ≠ a) :
    Memory.read (Memory.write m a v) b = Memory.read m b := by
  unfold Memory.write
  split
  · exact Memory.read_erase_other m hab
  · rw [Memory.read_insert_other _ v hab, Memory.read_erase_other m hab]

/-- Both read laws as one equation. -/
theorem Memory.read_write (m : Memory) (a b : Nat) (v : Word) :
    Memory.read (Memory.write m a v) b = if b = a then v else Memory.read m b := by
  split
  · next h => rw [h]; exact Memory.read_write_same m a v
  · next h => exact Memory.read_write_other m v h

/-! ## The canonical form -/

/-- The canonical form as a proposition. -/
theorem Memory.wf_iff (m : Memory) :
    Memory.wf m = true ↔
      (m.Pairwise fun c d => c.1 < d.1) ∧ ∀ c ∈ m, c.1 < 65536 ∧ c.2 ≠ 0 := by
  simp only [Memory.wf, Bool.and_eq_true, decide_eq_true_eq, List.all_eq_true]

@[simp] theorem Memory.wf_nil : Memory.wf [] = true := rfl

theorem Memory.mem_insert {m : Memory} {a : Nat} {v : Word} {c : Nat × Word} (h : c ∈ Memory.insert m a v) :
    c = (a, v) ∨ c ∈ m := by
  induction m with
  | nil => simpa [Memory.insert] using h
  | cons d m ih =>
    obtain ⟨k, u⟩ := d
    unfold Memory.insert at h
    split at h
    · simpa using h
    · rcases List.mem_cons.1 h with h | h
      · exact .inr (by simp [h])
      · exact (ih h).imp_right fun h => by simp [h]

theorem Memory.wf_erase {m : Memory} (a : Nat) (h : Memory.wf m = true) : Memory.wf (Memory.erase m a) = true := by
  rw [Memory.wf_iff] at *
  exact ⟨h.1.filter _, fun c hc => h.2 c (List.mem_of_mem_filter hc)⟩

theorem Memory.wf_insert {m : Memory} {a : Nat} {v : Word} (h : Memory.wf m = true) (ha : a < 65536) (hv : v ≠ 0)
    (hm : ∀ c ∈ m, c.1 ≠ a) : Memory.wf (Memory.insert m a v) = true := by
  rw [Memory.wf_iff] at *
  refine ⟨?_, fun c hc => (Memory.mem_insert hc).elim (fun e => by subst e; exact ⟨ha, hv⟩) (h.2 c)⟩
  obtain ⟨hp, -⟩ := h
  induction m with
  | nil => simp [Memory.insert]
  | cons d m ih =>
    obtain ⟨k, u⟩ := d
    have hka : k ≠ a := hm (k, u) (by simp)
    obtain ⟨hk, hp⟩ := List.pairwise_cons.1 hp
    unfold Memory.insert
    split
    · next hlt =>
      refine List.pairwise_cons.2 ⟨fun c hc => ?_, List.pairwise_cons.2 ⟨hk, hp⟩⟩
      rcases List.mem_cons.1 hc with rfl | hc
      · exact hlt
      · exact Nat.lt_trans hlt (hk c hc)
    · next hlt =>
      refine List.pairwise_cons.2 ⟨fun c hc => ?_, ih (fun c hc => hm c (by simp [hc])) hp⟩
      rcases Memory.mem_insert hc with rfl | hc
      · exact Nat.lt_of_le_of_ne (Nat.le_of_not_lt hlt) hka
      · exact hk c hc

/-- A write to a cell of the machine keeps the canonical form. -/
theorem Memory.wf_write {m : Memory} {a : Nat} (v : Word) (h : Memory.wf m = true) (ha : a < 65536) :
    Memory.wf (Memory.write m a v) = true := by
  unfold Memory.write
  split
  · exact Memory.wf_erase a h
  · next hv => exact Memory.wf_insert (Memory.wf_erase a h) ha hv fun _ hc => Memory.ne_of_mem_erase hc

/-- A canonical memory lists every cell that does not read 0, and no other. -/
theorem Memory.mem_iff_read {m : Memory} (h : Memory.wf m = true) (a : Nat) (v : Word) :
    (a, v) ∈ m ↔ Memory.read m a = v ∧ v ≠ 0 := by
  rw [Memory.wf_iff] at h
  obtain ⟨hp, hc⟩ := h
  induction m with
  | nil =>
    constructor
    · intro h; cases h
    · rintro ⟨h, hv⟩; exact absurd h.symm hv
  | cons d m ih =>
    obtain ⟨k, u⟩ := d
    obtain ⟨hk, hp⟩ := List.pairwise_cons.1 hp
    have hu : u ≠ 0 := (hc (k, u) (by simp)).2
    have ih := ih hp fun c hc' => hc c (by simp [hc'])
    by_cases hak : a = k
    · subst hak
      have hnot : (a, v) ∉ m := fun hmem => Nat.lt_irrefl a (hk _ hmem)
      simp only [List.mem_cons, Prod.mk.injEq, true_and, hnot, or_false, Memory.read, if_true]
      constructor
      · rintro rfl; exact ⟨rfl, hu⟩
      · rintro ⟨rfl, -⟩; rfl
    · simp only [List.mem_cons, Prod.mk.injEq, hak, false_and, false_or, Memory.read, if_false]
      exact ih

end Sys2Proof.Machine
end

