-- ==== Sys2Proof/Laws/State.lean ====
section
/-! SUPPORT. One lemma per field of the state per update: what the update makes of it. -/

namespace Sys2Proof.Machine

/-! ## The start states -/

@[simp] theorem load_mem (stream : List Byte) : (State.load stream).mem = [] := rfl
@[simp] theorem load_ip (stream : List Byte) : (State.load stream).ip = 0 := rfl
@[simp] theorem load_stream (stream : List Byte) : (State.load stream).stream = stream := rfl
@[simp] theorem reset_mem : State.reset.mem = [] := rfl
@[simp] theorem reset_ip : State.reset.ip = 0 := rfl
@[simp] theorem reset_stream : State.reset.stream = [] := rfl

/-! ## Writing a register -/

@[simp] theorem writeReg_x (s : State) (r : RegIdx) (v : Word) :
    (writeReg s r v).x = s.x.set r.val v r.isLt := rfl
@[simp] theorem writeReg_mem (s : State) (r : RegIdx) (v : Word) : (writeReg s r v).mem = s.mem := rfl
@[simp] theorem writeReg_ip (s : State) (r : RegIdx) (v : Word) : (writeReg s r v).ip = s.ip := rfl
@[simp] theorem writeReg_stream (s : State) (r : RegIdx) (v : Word) : (writeReg s r v).stream = s.stream := rfl

/-! ## Writing a cell -/

@[simp] theorem memWrite_x (s : State) (a : Nat) (v : Word) : (memWrite s a v).x = s.x := rfl
@[simp] theorem memWrite_mem (s : State) (a : Nat) (v : Word) : (memWrite s a v).mem = s.mem.write a v := rfl
@[simp] theorem memWrite_ip (s : State) (a : Nat) (v : Word) : (memWrite s a v).ip = s.ip := rfl
@[simp] theorem memWrite_stream (s : State) (a : Nat) (v : Word) : (memWrite s a v).stream = s.stream := rfl

/-! ## Advancing the instruction pointer -/

@[simp] theorem advance_x (s : State) : (advance s).x = s.x := rfl
@[simp] theorem advance_mem (s : State) : (advance s).mem = s.mem := rfl
@[simp] theorem advance_ip (s : State) : (advance s).ip = s.ip + 8 := rfl
@[simp] theorem advance_stream (s : State) : (advance s).stream = s.stream := rfl

/-! ## The guarded accesses -/

@[simp] theorem loadCell_mem (s : State) (a : Nat) (rd : RegIdx) : (loadCell s a rd).mem = s.mem := by
  unfold loadCell; split <;> rfl
@[simp] theorem loadCell_ip (s : State) (a : Nat) (rd : RegIdx) : (loadCell s a rd).ip = s.ip := by
  unfold loadCell; split <;> rfl
@[simp] theorem loadCell_stream (s : State) (a : Nat) (rd : RegIdx) : (loadCell s a rd).stream = s.stream := by
  unfold loadCell; split <;> rfl
@[simp] theorem storeCell_x (s : State) (a : Nat) (v : Word) : (storeCell s a v).x = s.x := by
  unfold storeCell; split <;> rfl
@[simp] theorem storeCell_ip (s : State) (a : Nat) (v : Word) : (storeCell s a v).ip = s.ip := by
  unfold storeCell; split <;> rfl
@[simp] theorem storeCell_stream (s : State) (a : Nat) (v : Word) : (storeCell s a v).stream = s.stream := by
  unfold storeCell; split <;> rfl

end Sys2Proof.Machine
end

