-- ==== Sys2Proof/Laws/Ops.lean ====
section
/-! SUPPORT. What each shared operation does, said once; provers cite these and do not unfold the operation. -/

namespace Sys2Proof.Machine

/-! ## Registers -/

@[simp] theorem readReg_writeReg_same (s : State) (r : RegIdx) (v : Word) : readReg (writeReg s r v) r = v := by
  simp [readReg, Vector.get_eq_getElem]

theorem readReg_writeReg_other (s : State) {r q : RegIdx} (v : Word) (h : q ≠ r) :
    readReg (writeReg s r v) q = readReg s q := by
  have hne : r.val ≠ q.val := fun e => h (Fin.ext e.symm)
  simp only [readReg, writeReg, Vector.get_eq_getElem]
  exact Vector.getElem_set_ne _ _ hne

/-- Both register laws as one equation. -/
theorem readReg_writeReg (s : State) (r q : RegIdx) (v : Word) :
    readReg (writeReg s r v) q = if q = r then v else readReg s q := by
  split
  · next h => rw [h]; exact readReg_writeReg_same s r v
  · next h => exact readReg_writeReg_other s v h

/-- Two states that read alike in every register have the same register file. -/
theorem x_ext_of_readReg {s t : State} (h : ∀ r, readReg t r = readReg s r) : t.x = s.x := by
  apply Vector.ext
  intro i hi
  simpa [readReg, Vector.get_eq_getElem] using h ⟨i, hi⟩

@[simp] theorem readReg_load (stream : List Byte) (r : RegIdx) : readReg (State.load stream) r = 0 := by
  simp [readReg, State.load, Vector.get_eq_getElem]

@[simp] theorem readReg_memWrite (s : State) (a : Nat) (v : Word) (r : RegIdx) :
    readReg (memWrite s a v) r = readReg s r := rfl

@[simp] theorem readReg_advance (s : State) (r : RegIdx) : readReg (advance s) r = readReg s r := rfl

@[simp] theorem readReg_storeCell (s : State) (a : Nat) (v : Word) (r : RegIdx) :
    readReg (storeCell s a v) r = readReg s r := by
  simp [readReg]

/-! ## Cells -/

@[simp] theorem memRead_load (stream : List Byte) (a : Nat) : memRead (State.load stream) a = 0 := rfl

@[simp] theorem memRead_advance (s : State) (a : Nat) : memRead (advance s) a = memRead s a := rfl

@[simp] theorem memRead_writeReg (s : State) (r : RegIdx) (v : Word) (a : Nat) :
    memRead (writeReg s r v) a = memRead s a := rfl

@[simp] theorem memRead_loadCell (s : State) (a : Nat) (rd : RegIdx) (b : Nat) :
    memRead (loadCell s a rd) b = memRead s b := by
  simp [memRead]

theorem memRead_memWrite (s : State) (a b : Nat) (v : Word) :
    memRead (memWrite s a v) b = if b = a then v else memRead s b :=
  Memory.read_write s.mem a b v

/-! ## The bounds check and the guarded accesses (R37) -/

@[simp] theorem inBounds_iff (a : Nat) : inBounds a = true ↔ a < 65536 := by
  simp [inBounds]

theorem loadCell_in {s : State} {a : Nat} (h : a < 65536) (rd : RegIdx) :
    loadCell s a rd = writeReg s rd (memRead s a) :=
  if_pos ((inBounds_iff a).2 h)

theorem loadCell_out {s : State} {a : Nat} (h : 65536 ≤ a) (rd : RegIdx) : loadCell s a rd = s :=
  if_neg fun e => absurd ((inBounds_iff a).1 e) (Nat.not_lt.2 h)

theorem storeCell_in {s : State} {a : Nat} (h : a < 65536) (v : Word) : storeCell s a v = memWrite s a v :=
  if_pos ((inBounds_iff a).2 h)

theorem storeCell_out {s : State} {a : Nat} (h : 65536 ≤ a) (v : Word) : storeCell s a v = s :=
  if_neg fun e => absurd ((inBounds_iff a).1 e) (Nat.not_lt.2 h)

/-- What a register holds after a guarded load. -/
theorem readReg_loadCell (s : State) (a : Nat) (rd q : RegIdx) :
    readReg (loadCell s a rd) q = if q = rd ∧ a < 65536 then memRead s a else readReg s q := by
  by_cases h : a < 65536
  · simp [loadCell_in h, readReg_writeReg, h]
  · simp [loadCell_out (Nat.le_of_not_lt h), h]

/-- What a cell holds after a guarded store. -/
theorem memRead_storeCell (s : State) (a b : Nat) (v : Word) :
    memRead (storeCell s a v) b = if b = a ∧ a < 65536 then v else memRead s b := by
  by_cases h : a < 65536
  · simp [storeCell_in h, memRead_memWrite, h]
  · simp [storeCell_out (Nat.le_of_not_lt h), h]

/-- A guarded store keeps the canonical form, whatever the address. -/
theorem wf_storeCell {s : State} (h : s.mem.wf = true) (a : Nat) (v : Word) : (storeCell s a v).mem.wf = true := by
  by_cases ha : a < 65536
  · rw [storeCell_in ha]; exact Memory.wf_write v h ha
  · rwa [storeCell_out (Nat.le_of_not_lt ha)]

/-! ## Operands and the comparison -/

/-- The constant of load-const keeps its value as a register value (R61). -/
@[simp] theorem constValue_toNat (c : BitVec Config.constBits) : (constValue c).toNat = c.toNat := by
  simp only [constValue, BitVec.toNat_setWidth]
  exact Nat.mod_eq_of_lt (Nat.lt_trans c.isLt (by decide))

theorem compareResult_ge {a b : Word} (h : b.toNat ≤ a.toNat) : compareResult a b = 1 := by
  simp [compareResult, unsignedGE, h]

theorem compareResult_lt {a b : Word} (h : a.toNat < b.toNat) : compareResult a b = 0 := by
  simp [compareResult, unsignedGE, Nat.not_le.2 h]

/-! ## The stream -/

@[simp] theorem halted_iff (s : State) : halted s = true ↔ s.stream.length < s.ip + 8 := by
  simp [halted]

theorem halted_eq_false_iff (s : State) : halted s = false ↔ s.ip + 8 ≤ s.stream.length := by
  simp [halted, Config.wordBytes]

theorem streamRead_length {stream : List Byte} {off : Nat} (h : off + 8 ≤ stream.length) :
    (streamRead stream off).length = 8 := by
  simp only [streamRead, List.length_take, List.length_drop, Config.wordBytes]
  omega

/-- The bytes put at an offset are what a fetch there reads. -/
theorem streamRead_placeBytes (stream : List Byte) (off : Nat) (bs : List Byte) (h : bs.length = 8) :
    streamRead (placeBytes stream off bs) off = bs := by
  have hlen : (stream.take off ++ List.replicate (off - stream.length) 0).length = off := by
    simp only [List.length_append, List.length_take, List.length_replicate]; omega
  unfold streamRead placeBytes
  rw [List.append_assoc _ bs, List.drop_append_of_le_length (by omega), List.drop_of_length_le (by omega)]
  simp [h]

end Sys2Proof.Machine
end

