-- ==== Sys2Proof/Laws/Exec.lean ====
section
/-! SUPPORT. What a meaning answers, one equation per instruction, and from them the one inversion lemma for `exec`: all that
an instruction can do to the state, said once. -/

namespace Sys2Proof.Machine

theorem exec_loadConst (rd : RegIdx) (const : BitVec Config.constBits) (s : State) :
    exec (.loadConst rd const) s = .next (advance (writeReg s rd (constValue const))) := rfl

theorem exec_readValue (rbase rd : RegIdx) (off : BitVec Config.offsetBits) (s : State) :
    exec (.readValue rbase rd off) s = .next (advance (loadCell s (baseOffsetAddr s rbase off) rd)) := rfl

theorem exec_writeValue (rdata rbase : RegIdx) (off : BitVec Config.offsetBits) (s : State) :
    exec (.writeValue rdata rbase off) s =
      .next (advance (storeCell s (baseOffsetAddr s rbase off) (readReg s rdata))) := rfl

theorem exec_greaterOrEqual (raddr : RegIdx) (memaddr : BitVec Config.memAddrBits) (rleft : RegIdx) (s : State) :
    exec (.greaterOrEqual raddr memaddr rleft) s = .next (advance (storeComparison s raddr memaddr rleft)) := rfl

/-- greater-or-equal's effect is a guarded store, or nothing when the literal address is out of bounds (R96). -/
theorem storeComparison_eq (s : State) (raddr : RegIdx) (memaddr : BitVec Config.memAddrBits) (rleft : RegIdx) :
    storeComparison s raddr memaddr rleft =
      if literalAddr memaddr < 65536 then
        storeCell s (registerAddr s raddr) (compareResult (readReg s rleft) (memRead s (literalAddr memaddr)))
      else s := by
  unfold storeComparison storeCell
  by_cases hc : literalAddr memaddr < 65536 <;> by_cases hd : registerAddr s raddr < 65536 <;> simp [inBounds, hc, hd]

@[simp] theorem storeComparison_x (s : State) (raddr : RegIdx) (memaddr : BitVec Config.memAddrBits) (rleft : RegIdx) :
    (storeComparison s raddr memaddr rleft).x = s.x := by
  unfold storeComparison; split <;> rfl
@[simp] theorem storeComparison_ip (s : State) (raddr : RegIdx) (memaddr : BitVec Config.memAddrBits) (rleft : RegIdx) :
    (storeComparison s raddr memaddr rleft).ip = s.ip := by
  unfold storeComparison; split <;> rfl
@[simp] theorem storeComparison_stream (s : State) (raddr : RegIdx) (memaddr : BitVec Config.memAddrBits)
    (rleft : RegIdx) : (storeComparison s raddr memaddr rleft).stream = s.stream := by
  unfold storeComparison; split <;> rfl
@[simp] theorem readReg_storeComparison (s : State) (raddr : RegIdx) (memaddr : BitVec Config.memAddrBits)
    (rleft r : RegIdx) : readReg (storeComparison s raddr memaddr rleft) r = readReg s r := by
  simp [readReg]

/-- What a cell holds after greater-or-equal's effect. -/
theorem memRead_storeComparison (s : State) (raddr : RegIdx) (memaddr : BitVec Config.memAddrBits) (rleft : RegIdx)
    (b : Nat) :
    memRead (storeComparison s raddr memaddr rleft) b =
      if b = registerAddr s raddr ∧ registerAddr s raddr < 65536 ∧ literalAddr memaddr < 65536 then
        compareResult (readReg s rleft) (memRead s (literalAddr memaddr))
      else memRead s b := by
  rw [storeComparison_eq]
  by_cases hc : literalAddr memaddr < 65536
  · simp [hc, memRead_storeCell]
  · simp [hc]

/-- All that an instruction can do: it writes one register, or it stores to one cell under the bounds check, or it does
nothing, and then it advances `ip`. -/
inductive Effect (i : Instr) (s : State) : State → Prop where
  | loadConst (rd : RegIdx) (const : BitVec Config.constBits) (h : i = .loadConst rd const) :
      Effect i s (advance (writeReg s rd (constValue const)))
  | load (rbase rd : RegIdx) (off : BitVec Config.offsetBits) (h : i = .readValue rbase rd off) :
      Effect i s (advance (loadCell s (baseOffsetAddr s rbase off) rd))
  | store (rdata rbase : RegIdx) (off : BitVec Config.offsetBits) (h : i = .writeValue rdata rbase off) :
      Effect i s (advance (storeCell s (baseOffsetAddr s rbase off) (readReg s rdata)))
  | compare (raddr : RegIdx) (memaddr : BitVec Config.memAddrBits) (rleft : RegIdx)
      (h : i = .greaterOrEqual raddr memaddr rleft) (hc : literalAddr memaddr < 65536) :
      Effect i s (advance (storeCell s (registerAddr s raddr)
        (compareResult (readReg s rleft) (memRead s (literalAddr memaddr)))))
  | compareSkipped (raddr : RegIdx) (memaddr : BitVec Config.memAddrBits) (rleft : RegIdx)
      (h : i = .greaterOrEqual raddr memaddr rleft) (hc : 65536 ≤ literalAddr memaddr) : Effect i s (advance s)
  | noOp (h : i ∈ noOpInstrs) : Effect i s (advance s)

/-- The inversion lemma: if an instruction answers a next state, that state is one of `Effect`'s. -/
theorem exec_effect {i : Instr} {s t : State} (h : exec i s = .next t) : Effect i s t := by
  cases i with
  | loadConst rd const => cases h; exact .loadConst rd const rfl
  | readValue rbase rd off => cases h; exact .load rbase rd off rfl
  | writeValue rdata rbase off => cases h; exact .store rdata rbase off rfl
  | greaterOrEqual raddr memaddr rleft =>
    rw [exec_greaterOrEqual, storeComparison_eq] at h
    cases h
    split
    · next hc => exact .compare raddr memaddr rleft rfl hc
    · next hc => exact .compareSkipped raddr memaddr rleft rfl (Nat.le_of_not_lt hc)
  | unrecognized0 => cases h; exact .noOp (by decide)
  | unrecognized1 => cases h; exact .noOp (by decide)
  | unrecognized2 => cases h; exact .noOp (by decide)
  | unrecognized4 => cases h; exact .noOp (by decide)
  | unrecognized6 => cases h; exact .noOp (by decide)
  | unrecognized7 => cases h; exact .noOp (by decide)
  | unrecognized8 => cases h; exact .noOp (by decide)
  | unrecognized9 => cases h; exact .noOp (by decide)
  | unrecognized11 => cases h; exact .noOp (by decide)
  | unrecognized12 => cases h; exact .noOp (by decide)
  | unrecognized13 => cases h; exact .noOp (by decide)
  | unrecognized15 => cases h; exact .noOp (by decide)

end Sys2Proof.Machine
end

