-- ==== Sys2Proof/Laws/PerInstr.lean ====
section
/-! SUPPORT. What holds of every instruction as a term, one lemma per constructor: the encoder puts the table's opcode in
field A (R53), and its word is canonical (R59, R66). -/

namespace Sys2Proof.Laws

/-- The encoded word's field A is the opcode of R53's table. -/
def OpcodeField.Statement (i : Instr) : Prop :=
  (opcodeOf (encodeWord i)).toNat = i.opcode

/-- The encoded word has 0 in every bit above its layout's last field. -/
def CanonicalEncoding.Statement (i : Instr) : Prop :=
  canonicalWord (encodeWord i) = true

/-- Once field A is known, a word is canonical when it is below the layout's bound. -/
theorem canonicalWord_of_opcode {w : InstrWord} {a n : Nat} (ha : (opcodeOf w).toNat = a) (hn : usedBits a = n)
    (hw : w.toNat < 2 ^ n) : canonicalWord w = true := by
  rw [opcodeOf_toNat] at ha
  simpa [canonicalWord, ha, hn] using hw

/-! ## The opcode field -/

theorem OpcodeField.loadConst (rd : RegIdx) (const : BitVec Config.constBits) :
    OpcodeField.Statement (.loadConst rd const) := by
  unfold OpcodeField.Statement opcodeOf encodeWord packLoadConst
  rw [extractBits_setBits_disjoint _ _ _ _ (by decide), extractBits_setBits_disjoint _ _ _ _ (by decide)]
  rfl

theorem OpcodeField.readValue (rbase rd : RegIdx) (off : BitVec Config.offsetBits) :
    OpcodeField.Statement (.readValue rbase rd off) := by
  unfold OpcodeField.Statement opcodeOf encodeWord packReadValue
  rw [extractBits_setBits_disjoint _ _ _ _ (by decide), extractBits_setBits_disjoint _ _ _ _ (by decide),
    extractBits_setBits_disjoint _ _ _ _ (by decide)]
  rfl

theorem OpcodeField.writeValue (rdata rbase : RegIdx) (off : BitVec Config.offsetBits) :
    OpcodeField.Statement (.writeValue rdata rbase off) := by
  unfold OpcodeField.Statement opcodeOf encodeWord packWriteValue
  rw [extractBits_setBits_disjoint _ _ _ _ (by decide), extractBits_setBits_disjoint _ _ _ _ (by decide),
    extractBits_setBits_disjoint _ _ _ _ (by decide)]
  rfl

theorem OpcodeField.greaterOrEqual (raddr : RegIdx) (memaddr : BitVec Config.memAddrBits) (rleft : RegIdx) :
    OpcodeField.Statement (.greaterOrEqual raddr memaddr rleft) := by
  unfold OpcodeField.Statement opcodeOf encodeWord packGreaterOrEqual
  rw [extractBits_setBits_disjoint _ _ _ _ (by decide), extractBits_setBits_disjoint _ _ _ _ (by decide),
    extractBits_setBits_disjoint _ _ _ _ (by decide)]
  rfl

theorem OpcodeField.unrecognized0 : OpcodeField.Statement .unrecognized0 := by unfold OpcodeField.Statement; decide
theorem OpcodeField.unrecognized1 : OpcodeField.Statement .unrecognized1 := by unfold OpcodeField.Statement; decide
theorem OpcodeField.unrecognized2 : OpcodeField.Statement .unrecognized2 := by unfold OpcodeField.Statement; decide
theorem OpcodeField.unrecognized4 : OpcodeField.Statement .unrecognized4 := by unfold OpcodeField.Statement; decide
theorem OpcodeField.unrecognized6 : OpcodeField.Statement .unrecognized6 := by unfold OpcodeField.Statement; decide
theorem OpcodeField.unrecognized7 : OpcodeField.Statement .unrecognized7 := by unfold OpcodeField.Statement; decide
theorem OpcodeField.unrecognized8 : OpcodeField.Statement .unrecognized8 := by unfold OpcodeField.Statement; decide
theorem OpcodeField.unrecognized9 : OpcodeField.Statement .unrecognized9 := by unfold OpcodeField.Statement; decide
theorem OpcodeField.unrecognized11 : OpcodeField.Statement .unrecognized11 := by unfold OpcodeField.Statement; decide
theorem OpcodeField.unrecognized12 : OpcodeField.Statement .unrecognized12 := by unfold OpcodeField.Statement; decide
theorem OpcodeField.unrecognized13 : OpcodeField.Statement .unrecognized13 := by unfold OpcodeField.Statement; decide
theorem OpcodeField.unrecognized15 : OpcodeField.Statement .unrecognized15 := by unfold OpcodeField.Statement; decide

/-! ## The canonical form -/

theorem CanonicalEncoding.loadConst (rd : RegIdx) (const : BitVec Config.constBits) :
    CanonicalEncoding.Statement (.loadConst rd const) := by
  refine canonicalWord_of_opcode (n := 31) (OpcodeField.loadConst rd const) rfl ?_
  unfold encodeWord packLoadConst
  refine setBits_lt _ _ _ _ _ (setBits_lt _ _ _ _ _ (setBits_lt _ _ _ _ _ (by decide) (by decide)) (by decide)) (by decide)

theorem CanonicalEncoding.readValue (rbase rd : RegIdx) (off : BitVec Config.offsetBits) :
    CanonicalEncoding.Statement (.readValue rbase rd off) := by
  refine canonicalWord_of_opcode (n := 22) (OpcodeField.readValue rbase rd off) rfl ?_
  unfold encodeWord packReadValue
  refine setBits_lt _ _ _ _ _ (setBits_lt _ _ _ _ _ (setBits_lt _ _ _ _ _ (setBits_lt _ _ _ _ _ (by decide) (by decide)) (by decide)) (by decide)) (by decide)

theorem CanonicalEncoding.writeValue (rdata rbase : RegIdx) (off : BitVec Config.offsetBits) :
    CanonicalEncoding.Statement (.writeValue rdata rbase off) := by
  refine canonicalWord_of_opcode (n := 22) (OpcodeField.writeValue rdata rbase off) rfl ?_
  unfold encodeWord packWriteValue
  refine setBits_lt _ _ _ _ _ (setBits_lt _ _ _ _ _ (setBits_lt _ _ _ _ _ (setBits_lt _ _ _ _ _ (by decide) (by decide)) (by decide)) (by decide)) (by decide)

theorem CanonicalEncoding.greaterOrEqual (raddr : RegIdx) (memaddr : BitVec Config.memAddrBits) (rleft : RegIdx) :
    CanonicalEncoding.Statement (.greaterOrEqual raddr memaddr rleft) := by
  refine canonicalWord_of_opcode (n := 44) (OpcodeField.greaterOrEqual raddr memaddr rleft) rfl ?_
  unfold encodeWord packGreaterOrEqual
  refine setBits_lt _ _ _ _ _ (setBits_lt _ _ _ _ _ (setBits_lt _ _ _ _ _ (setBits_lt _ _ _ _ _ (by decide) (by decide)) (by decide)) (by decide)) (by decide)

theorem CanonicalEncoding.unrecognized0 : CanonicalEncoding.Statement .unrecognized0 := by unfold CanonicalEncoding.Statement; decide
theorem CanonicalEncoding.unrecognized1 : CanonicalEncoding.Statement .unrecognized1 := by unfold CanonicalEncoding.Statement; decide
theorem CanonicalEncoding.unrecognized2 : CanonicalEncoding.Statement .unrecognized2 := by unfold CanonicalEncoding.Statement; decide
theorem CanonicalEncoding.unrecognized4 : CanonicalEncoding.Statement .unrecognized4 := by unfold CanonicalEncoding.Statement; decide
theorem CanonicalEncoding.unrecognized6 : CanonicalEncoding.Statement .unrecognized6 := by unfold CanonicalEncoding.Statement; decide
theorem CanonicalEncoding.unrecognized7 : CanonicalEncoding.Statement .unrecognized7 := by unfold CanonicalEncoding.Statement; decide
theorem CanonicalEncoding.unrecognized8 : CanonicalEncoding.Statement .unrecognized8 := by unfold CanonicalEncoding.Statement; decide
theorem CanonicalEncoding.unrecognized9 : CanonicalEncoding.Statement .unrecognized9 := by unfold CanonicalEncoding.Statement; decide
theorem CanonicalEncoding.unrecognized11 : CanonicalEncoding.Statement .unrecognized11 := by unfold CanonicalEncoding.Statement; decide
theorem CanonicalEncoding.unrecognized12 : CanonicalEncoding.Statement .unrecognized12 := by unfold CanonicalEncoding.Statement; decide
theorem CanonicalEncoding.unrecognized13 : CanonicalEncoding.Statement .unrecognized13 := by unfold CanonicalEncoding.Statement; decide
theorem CanonicalEncoding.unrecognized15 : CanonicalEncoding.Statement .unrecognized15 := by unfold CanonicalEncoding.Statement; decide

end Sys2Proof.Laws
end

