-- ==== Sys2Proof/Laws/Run.lean ====
section
/-! SUPPORT. Steps and runs: the equations of `step` and `run`, and the induction over a run, made once. -/

namespace Sys2Proof.Machine

theorem step_of_halted {s : State} (h : halted s = true) : step s = .next s :=
  if_pos h

theorem step_of_running {s : State} (h : halted s = false) : step s = exec (decodeWord (fetchWord s)) s :=
  if_neg (by simp [h])

@[simp] theorem run_zero (s : State) : run 0 s = .next s := rfl

theorem run_succ (k : Nat) (s : State) :
    run (k + 1) s = match step s with
      | .next t => run k t
      | .fault r => .fault r
      | .refused r => .refused r := by
  refine (Host.Core.run.eq_2 Sys2Proof.core s k).trans ?_
  have h : Sys2Proof.core.step s = step s := rfl
  rw [h]
  cases step s <;> rfl

/-- A run of one more step starts with a step. -/
theorem run_succ_of_step {k : Nat} {s t : State} (h : step s = .next t) : run (k + 1) s = run k t := by
  rw [run_succ, h]

/-- What every step keeps, every run keeps. -/
theorem run_keeps {P : State → Prop} (hP : ∀ s t, P s → step s = .next t → P t) {k : Nat} {s t : State} (hs : P s)
    (h : run k s = .next t) : P t := by
  induction k generalizing s with
  | zero => cases h; exact hs
  | succ k ih =>
    rw [run_succ] at h
    cases hstep : step s with
    | next u => rw [hstep] at h; exact ih (hP s u hs hstep) h
    | fault r => cases r
    | refused r => rw [hstep] at h; cases h

end Sys2Proof.Machine
end

