-- ==== Sys2Proof/Tests/Slice0.lean ====
section
/-! SUPPORT. Tests and witnesses. Expected results come from the spec: the vectors of `95_test_vectors.md` (named S, LC, RV,
WV, GE as there), the worked examples of the rules, or words written out bit by bit from the layouts. -/

namespace Sys2Proof.Tests

open Sys2Proof.Machine

/-! ## Helpers -/

/-- A state with some registers and cells set, `ip` 0 and the stream given. -/
def st (regs : List (RegIdx × Word)) (cells : List (Nat × Word)) (stream : List Byte) : State :=
  cells.foldl (fun s c => memWrite s c.1 c.2) (regs.foldl (fun s r => writeReg s r.1 r.2) (State.load stream))

/-- What a result's next state shows of some registers, some cells and `ip`. -/
def seen (o : Result) (rs : List RegIdx) (as : List Nat) : Option (List Nat × List Nat × Nat) :=
  match o with
  | .next t => some (rs.map fun r => (readReg t r).toNat, as.map fun a => (memRead t a).toNat, t.ip)
  | .fault _ => none
  | .refused _ => none

/-- The state a result holds. -/
def stateOf (o : Result) : Option State :=
  match o with
  | .next t => some t
  | .fault _ => none
  | .refused _ => none

/-! ## WellFormed smoke: a word of each layout with one unused bit set is refused, and its canonical form is not -/

theorem test_wf_load_const_bit31 : canonicalWord 0x000000008000000E#64 = false := by decide
theorem test_wf_read_value_bit22 : canonicalWord 0x0000000000400005#64 = false := by decide
theorem test_wf_write_value_bit22 : canonicalWord 0x0000000000400003#64 = false := by decide
theorem test_wf_greater_or_equal_bit44 : canonicalWord 0x000010000000000A#64 = false := by decide
theorem test_wf_unrecognized_bit4 : canonicalWord 0x0000000000000010#64 = false := by decide
theorem test_wf_source_vectors :
    [0xCC73E#64, 0x17BBA5#64, 0x33F8C3#64, 0x7C0000CAC2A#64, 0xF#64].all canonicalWord = true := by decide

/-! ## Unmarshaller (section 2.1) -/

theorem test_word_is_little_endian : wordOfBytes [1, 2, 3, 4, 5, 6, 7, 8] = 0x0807060504030201#64 := by decide
theorem test_extract_crosses_bytes :
    (extractBits 0x0807060504030201#64 4 6 (by decide)).toNat = 32 ∧
    (extractBits 0x0807060504030201#64 10 21 (by decide)).toNat = 65728 ∧
    (extractBits 0x0807060504030201#64 10 28 (by decide)).toNat = 21037248 ∧
    (extractBits 0x0807060504030201#64 38 6 (by decide)).toNat = 24 ∧
    (extractBits 0x0807060504030201#64 58 6 (by decide)).toNat = 2 := by decide
theorem test_extract_whole_word : (extractBits 0x0807060504030201#64 0 64 (by decide)).toNat = 578437695752307201 := by
  decide
theorem test_pack_truncates : bytesOfWord (setBits 0#64 60 4 0x1F (by decide)) = [0, 0, 0, 0, 0, 0, 0, 0xF0] := by decide
theorem test_pack_straddles : bytesOfWord (setBits 0#64 38 6 31 (by decide)) = [0, 0, 0, 0, 0xC0, 0x07, 0, 0] := by decide

/-! ## Decoding, from words written out bit by bit from R55 to R58 and from the spec's vectors -/

/-- R55: unused 63:31, C = 30:10 with only bit 20 set, B = 9:4 = 31, A = 14 (LC3). -/
theorem test_decode_load_const_bits :
    decodeWord 0b0000000000000000000000000000000001000000000000000000000111111110#64 = .loadConst 31 1048576 := by decide
/-- R56: D = 21:16 = 1, C = 15:10 = 2, B = 9:4 = 32, A = 5. -/
theorem test_decode_read_value_bits :
    decodeWord 0b0000000000000000000000000000000000000000000000010000101000000101#64 = .readValue 32 2 1 := by decide
/-- R57: D = 21:16 = 32, C = 15:10 = 1, B = 9:4 = 3, A = 3. -/
theorem test_decode_write_value_bits :
    decodeWord 0b0000000000000000000000000000000000000000001000000000010000110011#64 = .writeValue 3 1 32 := by decide
/-- R58: D = 43:38 = 33, C = 37:10 = 2^27 + 1, B = 9:4 = 4, A = 10. -/
theorem test_decode_greater_or_equal_bits :
    decodeWord 0b0000000000000000000010000110000000000000000000000000010001001010#64 = .greaterOrEqual 4 134217729 33 := by
  decide
/-- Section 2.6, opcode byte first: the twelve words of zeros and the twelve with every other bit 1. -/
theorem test_decode_unrecognized :
    ([0x0#64, 0x1, 0x2, 0x4, 0x6, 0x7, 0x8, 0x9, 0xB, 0xC, 0xD, 0xF].map decodeWord = noOpInstrs) ∧
    ([0xFFFFFFFFFFFFFFF0#64, 0xFFFFFFFFFFFFFFF1, 0xFFFFFFFFFFFFFFF2, 0xFFFFFFFFFFFFFFF4, 0xFFFFFFFFFFFFFFF6,
      0xFFFFFFFFFFFFFFF7, 0xFFFFFFFFFFFFFFF8, 0xFFFFFFFFFFFFFFF9, 0xFFFFFFFFFFFFFFFB, 0xFFFFFFFFFFFFFFFC,
      0xFFFFFFFFFFFFFFFD, 0xFFFFFFFFFFFFFFFF].map decodeWord = noOpInstrs) := by decide
/-- LC2, RV7, WV6, GE5: every field at its maximum. -/
theorem test_decode_field_maxima :
    [0x7FFFFFFE#64, 0x3FFFF5, 0x3FFFF3, 0xFFFFFFFFFFA].map decodeWord =
      [.loadConst 63 2097151, .readValue 63 63 63, .writeValue 63 63 63, .greaterOrEqual 63 268435455 63] := by decide
/-- LC5 and P6: junk in every unused bit. -/
theorem test_decode_ignores_unused_bits :
    [0xFFFFFFFF800CC73E#64, 0xFFFFFFFFFFC5CF33, 0xFFFFFCC0000CDB3A].map decodeWord =
      [.loadConst 51 817, .writeValue 51 51 5, .greaterOrEqual 51 822 51] := by decide
theorem test_decode_refuses_partial : decode [0x0E, 0x10, 0x00] = .error .trailingPartialInstruction := by rfl
/-- S1 to S4 the other way: the encoder gives the source's bytes. -/
theorem test_encode_source_vectors :
    encode (.loadConst 51 817) = [0x3E, 0xC7, 0x0C, 0, 0, 0, 0, 0] ∧
    encode (.readValue 58 46 23) = [0xA5, 0xBB, 0x17, 0, 0, 0, 0, 0] ∧
    encode (.writeValue 12 62 51) = [0xC3, 0xF8, 0x33, 0, 0, 0, 0, 0] ∧
    encode (.greaterOrEqual 2 811 31) = [0x2A, 0xAC, 0x0C, 0, 0xC0, 0x07, 0, 0] := by decide
theorem test_encode_unrecognized : noOpInstrs.map encodeWord = [0, 1, 2, 4, 6, 7, 8, 9, 11, 12, 13, 15] := by decide

/-! ## Instructions, at most two each -/

/-- LC1: register 0 is writable and the constant 0 clears it. -/
theorem test_load_const_clears_x0 : seen (exec (.loadConst 0 0) (st [(0, 9)] [] [])) [0] [] = some ([0], [], 8) := by
  decide
/-- LC2: the largest constant, zero-extended. -/
theorem test_load_const_largest : seen (exec (.loadConst 63 2097151) (st [] [] [])) [63, 62] [] =
    some ([2097151, 0], [], 8) := by decide
/-- RV2: the base is read before the destination is written. -/
theorem test_read_value_same_register :
    seen (exec (.readValue 3 3 0) (st [(3, 10)] [(10, 77)] [])) [3] [10] = some ([77], [77], 8) := by decide
/-- RV5: the sum does not wrap, the load is skipped, and the destination keeps its value. -/
theorem test_read_value_no_wrap :
    seen (exec (.readValue 6 7 63) (st [(6, 2097151), (7, 8)] [(62, 99)] [])) [7] [62] = some ([8], [99], 8) := by decide
/-- WV5: field C names the base register; the store goes to cell 0 and not to cell 10. -/
theorem test_write_value_base_register :
    seen (exec (.writeValue 0 10 0) (st [(0, 100)] [] [])) [0] [0, 10] = some ([100], [100, 0], 8) := by decide
/-- WV7: storing 0 clears a cell, and the memory keeps no entry for it. -/
theorem test_write_value_zero :
    (stateOf (exec (.writeValue 1 2 6) (st [(2, 7)] [(13, 4)] []))).map (fun t => t.mem) = some [] := by decide
/-- GE2: less gives exactly 0, replacing the old cell value. -/
theorem test_greater_or_equal_less :
    seen (exec (.greaterOrEqual 2 811 31) (st [(2, 300), (31, 49)] [(811, 50), (300, 5)] [])) [2, 31] [300, 811] =
      some ([300, 49], [0, 50], 8) := by decide
/-- GE8: the destination is the compared cell, whose old value is read first. -/
theorem test_greater_or_equal_same_cell :
    seen (exec (.greaterOrEqual 8 500 7) (st [(8, 500), (7, 7)] [(500, 7)] [])) [] [500] = some ([], [1], 8) := by decide
/-- GE4 and GE6: either address out of bounds, and nothing is written. -/
theorem test_greater_or_equal_skipped :
    seen (exec (.greaterOrEqual 0 65536 0) (st [(0, 7)] [(7, 3)] [])) [0] [7] = some ([7], [3], 8) ∧
    seen (exec (.greaterOrEqual 8 500 7) (st [(8, 70000), (7, 1)] [] [])) [8] [4464, 500] = some ([70000], [0, 0], 8) := by
  decide
/-- Section 2.6: each of the twelve changes nothing but `ip`. -/
theorem test_unrecognized_no_effect :
    noOpInstrs.all (fun i => decide (stateOf (exec i (st [(1, 2)] [(3, 4)] [])) = some (advance (st [(1, 2)] [(3, 4)] []))))
      = true := by decide

/-! ## Steps, and the stream (section 2.7) -/

/-- STREAM_LEN 8: the one word runs. -/
theorem test_step_runs_whole_word :
    seen (step (State.load [0x0A, 0, 0, 0, 0, 0, 0, 0])) [] [0] = some ([], [1], 8) := by decide
/-- STREAM_LEN 7: the lone partial word is not executed. -/
theorem test_step_halted_on_partial :
    stateOf (step (State.load [0x0A, 0, 0, 0, 0, 0, 0])) = some (State.load [0x0A, 0, 0, 0, 0, 0, 0]) := by decide
/-- S1 placed as the first instruction after reset. -/
theorem test_placed_word_runs_from_reset :
    seen (step (State.reset.withFetchWord 64 0xCC73E)) [51] [] = some ([817], [], 8) := by decide
/-- GE10 placed with 8 table bits: the bits above are 0. -/
theorem test_placed_short_word_runs_from_reset :
    decodeTableWord 8 0xFF0A = some (.greaterOrEqual 0 0 0) ∧
    seen (step (State.reset.withFetchWord 8 0xFF0A)) [] [0] = some ([], [1], 8) := by decide
/-- The result of the empty stream is the reset state's registers and memory. -/
theorem test_execute_empty : execute [] = some (State.reset.x, []) := by rfl

/-! ## Assembler and disassembler (section 2.8, R69) -/

theorem test_assemble_drops_unknown_names :
    assembleText "load_const;0;100\n\nadd;1;2;3\nload_const;1;75".toList =
      .ok ⟨[0x0E, 0x90, 0x01, 0, 0, 0, 0, 0, 0x1E, 0x2C, 0x01, 0, 0, 0, 0, 0], ["add".toList]⟩ := by rfl
theorem test_assemble_malformed_integer :
    assembleText "load_const;0;abc".toList = .error (.malformedInteger "abc".toList) := by rfl
theorem test_assemble_truncates :
    assembleText " read_value ; 58;46;87".toList = .ok ⟨[0xA5, 0xBB, 0x17, 0, 0, 0, 0, 0], []⟩ ∧
    assembleText "load_const;64;2097152".toList = .ok ⟨[0x0E, 0, 0, 0, 0, 0, 0, 0], []⟩ := ⟨rfl, rfl⟩
theorem test_assemble_operand_count :
    assembleText "load_const;1".toList = .error (.wrongOperandCount nameLoadConst) := by rfl
theorem test_disassemble : disassemble 0x7C0000CAC2A#64 = some "greater_or_equal;2;811;31".toList := by rfl

/-! ## Witnesses: for each statement with hypotheses, values that meet them, at the boundaries of its clauses -/

theorem witness_FetchedWordIsLittleEndianSum : 0 < 64 ∧ 63 < 64 := by decide
theorem witness_UnmarshallerShiftsAndMasks :
    0 + 64 ≤ 64 ∧ 58 + 6 ≤ 64 ∧ (State.load [1, 2, 3, 4, 5, 6, 7, 8]).ip + 8 ≤
      (State.load [1, 2, 3, 4, 5, 6, 7, 8]).stream.length := by decide
theorem witness_ResetLeavesEverythingZero :
    State.reset.mem.wf = true ∧ (∀ r, readReg State.reset r = 0) ∧ (∀ a, memRead State.reset a = 0) ∧
    State.reset.ip = 0 ∧ State.reset.stream = [] := ⟨by decide, by decide, fun _ => rfl, rfl, rfl⟩
theorem witness_ExecutionIsTotal : 0 < ([0x0A, 0, 0, 0, 0, 0, 0, 0] : List Byte).length / 8 := by decide
theorem witness_PackThenExtractCutsToField :
    58 + 6 ≤ 64 ∧ 5 < 6 ∧ 57 < 64 ∧ ¬ (58 ≤ 57 ∧ 57 < 58 + 6) := by decide
theorem witness_DecodeFollowsTheLayouts :
    (0xFFFFFFFFFFFFFFFE#64).toNat % 16 = 14 ∧ (0x5#64).toNat % 16 = 5 ∧ (0x3#64).toNat % 16 = 3 ∧
    (0xA#64).toNat % 16 = 10 ∧
    ((0xF#64).toNat % 16 ≠ 14 ∧ (0xF#64).toNat % 16 ≠ 5 ∧ (0xF#64).toNat % 16 ≠ 3 ∧ (0xF#64).toNat % 16 ≠ 10) := by
  decide
theorem witness_UnusedBitsAreIgnored :
    (0xFFFFFFFF800CC73E#64).toNat % 2 ^ usedBits ((0xFFFFFFFF800CC73E#64).toNat % 16) =
      (0xCC73E#64).toNat % 2 ^ usedBits ((0xFFFFFFFF800CC73E#64).toNat % 16) := by decide
theorem witness_StatesThatReadAlikeAreEqual :
    (st [] [(5, 1), (4, 2)] []).mem.wf = true ∧ (st [] [(4, 2), (5, 1)] []).mem.wf = true ∧
    (∀ r, readReg (st [] [(5, 1), (4, 2)] []) r = readReg (st [] [(4, 2), (5, 1)] []) r) ∧
    (∀ a, memRead (st [] [(5, 1), (4, 2)] []) a = memRead (st [] [(4, 2), (5, 1)] []) a) ∧
    (st [] [(5, 1), (4, 2)] []).ip = (st [] [(4, 2), (5, 1)] []).ip ∧
    (st [] [(5, 1), (4, 2)] []).stream = (st [] [(4, 2), (5, 1)] []).stream :=
  ⟨by decide, by decide, fun _ => rfl, fun _ => rfl, rfl, rfl⟩
theorem witness_LoadConstWritesItsConstantField :
    (0xE#64).toNat % 16 = 14 ∧ (62 : RegIdx) ≠ 63 := by decide
/-- The last in-bounds address (RV3) and the first out of bounds (RV4). -/
theorem witness_ReadValueLoadsTheCellInBounds :
    (0x5#64).toNat % 16 = 5 ∧
    (readReg (st [(4, 65472)] [] []) 4).toNat + (63 : BitVec Config.offsetBits).toNat = 65535 ∧ 65535 < 65536 ∧
    65536 ≤ (readReg (st [(4, 65535)] [] []) 4).toNat + (1 : BitVec Config.offsetBits).toNat ∧ (4 : RegIdx) ≠ 5 := by decide
/-- WV4 and WV2: the last in-bounds address and the first out of bounds. -/
theorem witness_WriteValueStoresTheRegisterInBounds :
    (0x3#64).toNat % 16 = 3 ∧
    (readReg (st [(2, 65535)] [] []) 2).toNat + (0 : BitVec Config.offsetBits).toNat = 65535 ∧ 65535 < 65536 ∧
    65536 ≤ (readReg (st [(2, 65530)] [] []) 2).toNat + (6 : BitVec Config.offsetBits).toNat ∧ 65534 ≠ 65535 := by decide
/-- GE12: both addresses the last cell; and each address out of bounds alone at its least value. -/
theorem witness_GreaterOrEqualStoresTheComparison :
    (0xA#64).toNat % 16 = 10 ∧
    ((65535 : BitVec Config.memAddrBits).toNat < 65536 ∧ (readReg (st [(0, 65535)] [] []) 0).toNat < 65536) ∧
    ¬ ((65536 : BitVec Config.memAddrBits).toNat < 65536 ∧ (readReg (st [(0, 65535)] [] []) 0).toNat < 65536) ∧
    ¬ ((65535 : BitVec Config.memAddrBits).toNat < 65536 ∧ (readReg (st [(0, 65536)] [] []) 0).toNat < 65536) := by decide
theorem witness_GreaterOrEqualWritesOnlyWhenBothInBounds :
    65536 ≤ (65536 : BitVec Config.memAddrBits).toNat ∧ 65536 ≤ (readReg (st [(0, 65536)] [] []) 0).toNat ∧
    ((65535 : BitVec Config.memAddrBits).toNat < 65536 ∧ (readReg (st [(0, 65535)] [] []) 0).toNat < 65536) := by decide
theorem witness_UnrecognizedOpcodesOnlyAdvance :
    ((0x0#64).toNat % 16 ≠ 14 ∧ (0x0#64).toNat % 16 ≠ 5 ∧ (0x0#64).toNat % 16 ≠ 3 ∧ (0x0#64).toNat % 16 ≠ 10) ∧
    Instr.unrecognized15 ∈ noOpInstrs := by decide
theorem witness_OutOfBoundsAccessesAreSkipped :
    65536 ≤ (readReg (st [(4, 65535)] [] []) 4).toNat + (1 : BitVec Config.offsetBits).toNat := by decide
/-- The store at the last cell, and the load of it through another register and offset in the very next state. -/
theorem witness_StoreThenLoadReturnsTheValue :
    exec (.writeValue 1 2 0) (st [(1, 5), (2, 65535), (3, 65472)] [] []) =
      .next (advance (storeCell (st [(1, 5), (2, 65535), (3, 65472)] [] []) 65535 5)) ∧
    (readReg (st [(1, 5), (2, 65535), (3, 65472)] [] []) 2).toNat + (0 : BitVec Config.offsetBits).toNat < 65536 ∧
    (readReg (advance (storeCell (st [(1, 5), (2, 65535), (3, 65472)] [] []) 65535 5)) 3).toNat
      + (63 : BitVec Config.offsetBits).toNat =
      (readReg (st [(1, 5), (2, 65535), (3, 65472)] [] []) 2).toNat + (0 : BitVec Config.offsetBits).toNat ∧
    65536 ≤ (readReg (st [(2, 65530)] [] []) 2).toNat + (6 : BitVec Config.offsetBits).toNat :=
  ⟨by rfl, by decide, by decide, by decide⟩
theorem witness_StoringTheHeldValueChangesNothing :
    (st [(1, 5), (2, 10)] [(10, 5)] []).mem.wf = true ∧
    memRead (st [(1, 5), (2, 10)] [(10, 5)] [])
      ((readReg (st [(1, 5), (2, 10)] [(10, 5)] []) 2).toNat + (0 : BitVec Config.offsetBits).toNat) =
      readReg (st [(1, 5), (2, 10)] [(10, 5)] []) 1 := by decide
theorem witness_OnlyLoadsChangeARegister :
    exec (.loadConst 1 2) State.reset = .next (advance (writeReg State.reset 1 2)) ∧
    readReg (advance (writeReg State.reset 1 2)) 1 ≠ readReg State.reset 1 := ⟨by rfl, by decide⟩
theorem witness_OnlyStoresChangeACell :
    exec (.greaterOrEqual 0 0 0) State.reset = .next (advance (memWrite State.reset 0 1)) ∧
    memRead (advance (memWrite State.reset 0 1)) 0 ≠ memRead State.reset 0 := ⟨by rfl, by decide⟩
/-- Two states that differ in a register the instruction does not name. -/
theorem witness_OnlyTheNamedRegistersAreRead :
    (∀ r ∈ readRegs (.readValue 1 2 0), readReg (st [(1, 10)] [(10, 7)] []) r = readReg (st [(1, 10), (3, 9)] [(10, 7)] []) r) ∧
    (∀ a, memRead (st [(1, 10)] [(10, 7)] []) a = memRead (st [(1, 10), (3, 9)] [(10, 7)] []) a) ∧
    readReg (st [(1, 10)] [(10, 7)] []) 3 ≠ readReg (st [(1, 10), (3, 9)] [(10, 7)] []) 3 ∧
    (∃ t, exec (.readValue 1 2 0) (st [(1, 10)] [(10, 7)] []) = .next t) ∧
    ∃ t, exec (.readValue 1 2 0) (st [(1, 10), (3, 9)] [(10, 7)] []) = .next t :=
  ⟨by decide, fun _ => rfl, by decide, ⟨_, rfl⟩, ⟨_, rfl⟩⟩
theorem witness_EveryStepAdvancesByEight :
    (State.load [0x0E, 0, 0, 0, 0, 0, 0, 0]).ip + 8 ≤ (State.load [0x0E, 0, 0, 0, 0, 0, 0, 0]).stream.length := by decide
theorem witness_StepRunsTheDecodedInstruction :
    decode ((State.load [0x0E, 0, 0, 0, 0, 0, 0, 0, 1]).stream.drop (State.load [0x0E, 0, 0, 0, 0, 0, 0, 0, 1]).ip) =
      .ok (.loadConst 0 0, [1]) ∧
    decode ((State.load [0x0E, 0, 0, 0, 0, 0, 0]).stream.drop (State.load [0x0E, 0, 0, 0, 0, 0, 0]).ip) =
      .error .trailingPartialInstruction := ⟨by rfl, by rfl⟩
theorem witness_HaltedMachineNeverChanges :
    halted (State.load [1, 2, 3, 4, 5, 6, 7]) = true ∧
    run 1 (State.load []) = .next (State.load []) := ⟨by decide, by rfl⟩
theorem witness_RunHaltsAfterExactlyItsWords :
    0 ≤ ([1, 2, 3, 4, 5, 6, 7, 8, 9] : List Byte).length / 8 ∧
    1 ≤ ([1, 2, 3, 4, 5, 6, 7, 8, 9] : List Byte).length / 8 := by decide
theorem witness_TrailingBytesAreDiscarded :
    ([0x0A, 0, 0, 0, 0, 0, 0, 0] : List Byte).length % 8 = 0 ∧ ([1, 2, 3, 4, 5, 6, 7] : List Byte).length < 8 := by decide
theorem witness_FetchSeesTheStreamTheRunBeganWith :
    run 0 (State.load [0x0A, 0, 0, 0, 0, 0, 0, 0]) = .next (State.load [0x0A, 0, 0, 0, 0, 0, 0, 0]) ∧
    halted (State.load [0x0A, 0, 0, 0, 0, 0, 0, 0]) = false := ⟨rfl, by decide⟩
theorem witness_StepKeepsTheInvariant :
    (State.load [0x0A, 0, 0, 0, 0, 0, 0, 0]).Inv ∧
    ∃ t, step (State.load [0x0A, 0, 0, 0, 0, 0, 0, 0]) = .next t := ⟨⟨rfl, rfl, Nat.zero_le _⟩, ⟨_, rfl⟩⟩
theorem witness_StepKeepsValuesBelowTheConstantRange :
    (State.load [0x0A, 0, 0, 0, 0, 0, 0, 0]).ValuesBelow (2 ^ 21) ∧
    ∃ t, step (State.load [0x0A, 0, 0, 0, 0, 0, 0, 0]) = .next t :=
  ⟨⟨fun r => by simp, fun a => by simp⟩, ⟨_, rfl⟩⟩
theorem witness_WidthIsNotObservableFromReset : 21 ≤ 21 := by decide
theorem witness_StepRefinesTheReferenceStep : halted (State.load [0x0A, 0, 0, 0, 0, 0, 0, 0]) = false := by decide
theorem witness_ExecuteRefinesTheReferenceRun : ([0x0A, 0, 0, 0, 0, 0, 0, 0] : List Byte).length / 8 ≤ 1 := by decide
/-- A stream whose first word is a load-const, and the run of it. -/
theorem witness_ValuesComeFromExecutedConstants :
    (∃ t, run 1 (State.load [0x3E, 0xC7, 0x0C, 0, 0, 0, 0, 0]) = .next t) ∧
    LoadedBefore [0x3E, 0xC7, 0x0C, 0, 0, 0, 0, 0] 1 817 :=
  ⟨⟨_, rfl⟩, ⟨0, 51, 817, by decide, by decide, by decide, by decide⟩⟩
/-- The set of the values 0, 1 and 817, a load-const of 817 at `ip`, and a state whose values lie in it. -/
theorem witness_StepAddsNoValueButTheConstant :
    (fun v : Word => v = 0 ∨ v = 1 ∨ v = 817) 0 ∧ (fun v : Word => v = 0 ∨ v = 1 ∨ v = 817) 1 ∧
    decodeWord (fetchWord (State.load [0x3E, 0xC7, 0x0C, 0, 0, 0, 0, 0])) = .loadConst 51 817 ∧
    (∀ rd const, (State.load [0x3E, 0xC7, 0x0C, 0, 0, 0, 0, 0]).ip + 8 ≤
        (State.load [0x3E, 0xC7, 0x0C, 0, 0, 0, 0, 0]).stream.length →
      decodeWord (fetchWord (State.load [0x3E, 0xC7, 0x0C, 0, 0, 0, 0, 0])) = .loadConst rd const →
      (fun v : Word => v = 0 ∨ v = 1 ∨ v = 817) (constValue const)) ∧
    (∀ r, (fun v : Word => v = 0 ∨ v = 1 ∨ v = 817) (readReg (State.load [0x3E, 0xC7, 0x0C, 0, 0, 0, 0, 0]) r)) ∧
    ∀ a, (fun v : Word => v = 0 ∨ v = 1 ∨ v = 817) (memRead (State.load [0x3E, 0xC7, 0x0C, 0, 0, 0, 0, 0]) a) := by
  have hd : decodeWord (fetchWord (State.load [0x3E, 0xC7, 0x0C, 0, 0, 0, 0, 0])) = .loadConst 51 817 := by decide
  refine ⟨.inl rfl, .inr (.inl rfl), hd, fun rd const _ h => ?_, fun r => .inl (by simp), fun a => .inl (by simp)⟩
  cases hd.symm.trans h
  exact .inr (.inr (by decide))
/-- A store to the last cell spares the cell before it; an address of 65536 is no cell. -/
theorem witness_OneEffectPerInstruction :
    (65534 : Nat) ≠ baseOffsetAddr (st [(2, 65535)] [] []) 2 0 ∧
    65536 ≤ baseOffsetAddr (st [(2, 65535)] [] []) 2 1 ∧
    0 ≠ registerAddr (st [(2, 65535)] [] []) 2 ∧ 65536 ≤ registerAddr (st [(2, 65536)] [] []) 2 ∧
    (62 : RegIdx) ≠ 63 ∧ Instr.unrecognized0 ∈ noOpInstrs := by decide
theorem witness_AssemblyConcatenates :
    (∃ out, assemble [⟨nameLoadConst, [51, 817]⟩] = .ok out) ∧
    (∃ e, assemble [⟨nameLoadConst, [51]⟩] = .error e) ∧
    "nop".toList ∉ [nameLoadConst, nameReadValue, nameWriteValue, nameGreaterOrEqual] :=
  ⟨⟨_, rfl⟩, ⟨_, rfl⟩, by decide⟩
theorem witness_MalformedLineFailsTheAssembly :
    "foo;x".toList ∈ splitText '\n' "load_const;0;1\nfoo;x".toList ∧
    parseLine "foo;x".toList = .error (.malformedInteger "x".toList) := ⟨by decide, by rfl⟩
theorem witness_AssemblerEmitsOnlyTheFourOpcodes :
    ∃ out, assemble [⟨nameLoadConst, [51, 817]⟩] = .ok out ∧ 0 < out.bytes.length / 8 := ⟨_, rfl, by decide⟩
theorem witness_AssemblyOfDisassemblyIsTheCanonicalWord :
    disassemble 0xFFFFFFFF800CC73E#64 = some "load_const;51;817".toList := by rfl

/-- The canonical form holds of the reset memory. -/
theorem test_reset_memory_canonical : State.reset.mem.wf = true := by decide

end Sys2Proof.Tests
end

/-! # Proofs: the statements of the scope chapter (`00_scope.md`) -/

/-! ## The decoder on a byte sequence -/

namespace Sys2Proof

/-- Eight bytes or more: the first eight are an instruction, whatever they are (R60). -/
theorem decode_of_length_ge {bs : List Byte} (h : 8 ≤ bs.length) :
    decode bs = .ok (decodeWord (wordOfBytes (bs.take 8)), bs.drop 8) := by
  match bs, h with
  | _ :: _ :: _ :: _ :: _ :: _ :: _ :: _ :: _, _ => rfl

/-- Fewer than eight bytes: a trailing partial instruction (R15). -/
theorem decode_of_length_lt {bs : List Byte} (h : bs.length < 8) : decode bs = .error .trailingPartialInstruction := by
  unfold decode
  split
  · simp only [List.length_cons] at h
    omega
  · rfl

/-- The decoder reads a word back from its eight bytes. -/
theorem decode_bytesOfWord (w : InstrWord) : decode (bytesOfWord w) = .ok (decodeWord w, []) := by
  have hlen : (bytesOfWord w).length = 8 := bytesOfWord_length w
  rw [decode_of_length_ge hlen.ge, List.take_of_length_le hlen.le, List.drop_of_length_le hlen.le,
    wordOfBytes_bytesOfWord]

/-- What the decoder reads from a table row's word. -/
theorem decodeTableWord_eq (nbits w : Nat) :
    decodeTableWord nbits w = some (decodeWord (BitVec.ofNat 64 (w % 2 ^ nbits))) := by
  rw [decodeTableWord, tableWordBytes, decode_bytesOfWord]

end Sys2Proof

namespace Sys2Proof.Machine

/-! ## A step and the decoder (O25) -/

/-- While the machine runs, the stream from `ip` on decodes to the word that fetch reads. -/
theorem decode_stream_of_running {s : State} (h : halted s = false) :
    decode (s.stream.drop s.ip) = .ok (decodeWord (fetchWord s), (s.stream.drop s.ip).drop 8) := by
  rw [halted_eq_false_iff] at h
  refine decode_of_length_ge ?_
  rw [List.length_drop]
  omega

/-- Once the machine is halted, the stream from `ip` on holds no whole instruction. -/
theorem decode_stream_of_halted {s : State} (h : halted s = true) :
    decode (s.stream.drop s.ip) = .error .trailingPartialInstruction := by
  rw [halted_iff] at h
  refine decode_of_length_lt ?_
  rw [List.length_drop]
  omega

/-- Settles O25: the bytes at `ip` decode exactly when the machine is not halted. -/
theorem stepRunsTheDecodedInstruction : Obligations.StepRunsTheDecodedInstruction := by
  unfold Obligations.StepRunsTheDecodedInstruction
  intro s
  cases hs : halted s with
  | false =>
    rw [decode_stream_of_running hs, step_of_running hs]
    exact ⟨fun i rest h => by cases h; rfl, fun e h => by cases h⟩
  | true =>
    rw [decode_stream_of_halted hs, step_of_halted hs]
    exact ⟨fun i rest h => (by cases h), fun _ _ => rfl⟩

/-! ## A placed word (O26) -/

@[simp] theorem withFetchWord_x (s : State) (nbits w : Nat) : (s.withFetchWord nbits w).x = s.x := rfl
@[simp] theorem withFetchWord_mem (s : State) (nbits w : Nat) : (s.withFetchWord nbits w).mem = s.mem := rfl
@[simp] theorem withFetchWord_ip (s : State) (nbits w : Nat) : (s.withFetchWord nbits w).ip = s.ip := rfl
@[simp] theorem withFetchWord_stream (s : State) (nbits w : Nat) :
    (s.withFetchWord nbits w).stream = placeBytes s.stream s.ip (tableWordBytes nbits w) := rfl

/-- The stream reaches to the end of the bytes placed in it. -/
theorem le_length_placeBytes (stream : List Byte) (off : Nat) (bs : List Byte) :
    off + bs.length ≤ (placeBytes stream off bs).length := by
  simp only [placeBytes, List.length_append, List.length_take, List.length_replicate]
  omega

/-- A machine with a word placed at `ip` is not halted. -/
theorem halted_withFetchWord (s : State) (nbits w : Nat) : halted (s.withFetchWord nbits w) = false := by
  rw [halted_eq_false_iff]
  exact le_length_placeBytes s.stream s.ip (tableWordBytes nbits w)

/-- Fetch reads the placed word. -/
theorem fetchWord_withFetchWord (s : State) (nbits w : Nat) :
    fetchWord (s.withFetchWord nbits w) = BitVec.ofNat 64 (w % 2 ^ nbits) := by
  rw [fetchWord, withFetchWord_stream, withFetchWord_ip, tableWordBytes,
    streamRead_placeBytes _ _ _ (bytesOfWord_length _), wordOfBytes_bytesOfWord]

/-- Settles O26: the placed word is what fetch reads, and the decoder reads the same from the number. -/
theorem placedWordRunsNext : Obligations.PlacedWordRunsNext := by
  unfold Obligations.PlacedWordRunsNext
  intro s w
  refine ⟨_, decodeTableWord_eq 64 w, ?_, withFetchWord_x s 64 w, withFetchWord_mem s 64 w, withFetchWord_ip s 64 w⟩
  rw [step_of_running (halted_withFetchWord s 64 w), fetchWord_withFetchWord]

/-! ## The one effect of an instruction (O23) -/

/-- Every no-op slot answers the state with `ip` advanced (R105). -/
theorem exec_of_mem_noOpInstrs {i : Instr} (h : i ∈ noOpInstrs) (s : State) : exec i s = .next (advance s) := by
  simp only [noOpInstrs, List.mem_cons, List.not_mem_nil, or_false] at h
  rcases h with rfl | rfl | rfl | rfl | rfl | rfl | rfl | rfl | rfl | rfl | rfl | rfl <;> rfl

/-- A guarded load leaves every register but its destination. -/
theorem readReg_loadCell_other (s : State) (a : Nat) {rd q : RegIdx} (h : q ≠ rd) :
    readReg (loadCell s a rd) q = readReg s q := by
  rw [readReg_loadCell, if_neg fun e => h e.1]

/-- A guarded store leaves every cell but the addressed one, and everything from 65536 up. -/
theorem memRead_storeCell_other (s : State) {a b : Nat} (v : Word) (h : b ≠ a ∨ 65536 ≤ b) :
    memRead (storeCell s a v) b = memRead s b := by
  rw [memRead_storeCell, if_neg (by omega)]

/-- The effect of greater-or-equal leaves every cell but the one its register addresses, and everything from 65536 up. -/
theorem memRead_storeComparison_other (s : State) {raddr : RegIdx} (memaddr : BitVec Config.memAddrBits) (rleft : RegIdx)
    {b : Nat} (h : b ≠ registerAddr s raddr ∨ 65536 ≤ b) :
    memRead (storeComparison s raddr memaddr rleft) b = memRead s b := by
  rw [memRead_storeComparison, if_neg (by omega)]

/-- Settles O23: each form's frame is the frame of the one operation it is made of. -/
theorem oneEffectPerInstruction : Obligations.OneEffectPerInstruction := by
  unfold Obligations.OneEffectPerInstruction
  refine ⟨fun rd const s => ?_, fun rbase rd off s => ?_, fun rdata rbase off s => ?_,
    fun raddr memaddr rleft s => ?_, fun i hi s => ?_⟩
  · exact ⟨_, exec_loadConst rd const s, fun q hq => readReg_writeReg_other s _ hq, fun a => rfl⟩
  · exact ⟨_, exec_readValue rbase rd off s, fun q hq => readReg_loadCell_other s _ hq,
      fun a => memRead_loadCell s _ rd a⟩
  · exact ⟨_, exec_writeValue rdata rbase off s, fun b hb => memRead_storeCell_other s _ hb,
      fun r => readReg_storeCell s _ _ r⟩
  · exact ⟨_, exec_greaterOrEqual raddr memaddr rleft s, fun b hb => memRead_storeComparison_other s memaddr rleft hb,
      fun r => readReg_storeComparison s raddr memaddr rleft r⟩
  · exact ⟨_, exec_of_mem_noOpInstrs hi s, fun r => rfl, fun a => rfl⟩

/-! ## Where the values of a state can lie (O34)

The bound of R5 is one set of values; R81 is about others. What a step does to the values is said here for every set. -/

/-- Every register and every cell holds a value of the set `S`. -/
structure State.ValuesIn (S : Word → Prop) (s : State) : Prop where
  regs : ∀ r, S (readReg s r)
  cells : ∀ a, S (memRead s a)

theorem State.valuesBelow_iff_valuesIn (bound : Nat) (s : State) :
    s.ValuesBelow bound ↔ s.ValuesIn fun v => v.toNat < bound :=
  ⟨fun h => ⟨h.regs, h.cells⟩, fun h => ⟨h.regs, h.cells⟩⟩

section ValuesIn

variable {S : Word → Prop} {s : State}

theorem State.ValuesIn.advance (h : s.ValuesIn S) : (advance s).ValuesIn S :=
  ⟨h.regs, h.cells⟩

theorem State.ValuesIn.writeReg (h : s.ValuesIn S) (rd : RegIdx) {v : Word} (hv : S v) : (writeReg s rd v).ValuesIn S where
  regs r := by
    rw [readReg_writeReg]
    split
    · exact hv
    · exact h.regs r
  cells := h.cells

theorem State.ValuesIn.loadCell (h : s.ValuesIn S) (a : Nat) (rd : RegIdx) : (loadCell s a rd).ValuesIn S := by
  by_cases ha : a < 65536
  · rw [loadCell_in ha]
    exact h.writeReg rd (h.cells a)
  · rwa [loadCell_out (Nat.le_of_not_lt ha)]

theorem State.ValuesIn.storeCell (h : s.ValuesIn S) (a : Nat) {v : Word} (hv : S v) : (storeCell s a v).ValuesIn S where
  regs r := by
    rw [readReg_storeCell]
    exact h.regs r
  cells b := by
    rw [memRead_storeCell]
    split
    · exact hv
    · exact h.cells b

/-- A comparison gives 0 or 1 (R95). -/
theorem compareResult_of_zero_one (h0 : S 0) (h1 : S 1) (a b : Word) : S (compareResult a b) := by
  unfold compareResult
  split
  · exact h1
  · exact h0

/-- An instruction makes no value but 0, 1 and the constant of a load-const (R81). -/
theorem Effect.valuesIn {i : Instr} {t : State} (he : Effect i s t) (h0 : S 0) (h1 : S 1)
    (hconst : ∀ rd const, i = .loadConst rd const → S (constValue const)) (h : s.ValuesIn S) : t.ValuesIn S := by
  cases he with
  | loadConst rd const hi => exact (h.writeReg rd (hconst rd const hi)).advance
  | load rbase rd off => exact (h.loadCell _ rd).advance
  | store rdata rbase off => exact (h.storeCell _ (h.regs rdata)).advance
  | compare raddr memaddr rleft => exact (h.storeCell _ (compareResult_of_zero_one h0 h1 _ _)).advance
  | compareSkipped => exact h.advance
  | noOp => exact h.advance

/-- A step makes no value but 0, 1 and, if the word at `ip` is a load-const, its constant (R81). -/
theorem State.ValuesIn.step {t : State} (h : s.ValuesIn S) (h0 : S 0) (h1 : S 1)
    (hconst : ∀ rd const, s.ip + 8 ≤ s.stream.length → decodeWord (fetchWord s) = .loadConst rd const →
      S (constValue const)) (hstep : step s = .next t) : t.ValuesIn S := by
  cases hs : halted s with
  | true =>
    rw [step_of_halted hs] at hstep
    cases hstep
    exact h
  | false =>
    rw [step_of_running hs] at hstep
    rw [halted_eq_false_iff] at hs
    exact (exec_effect hstep).valuesIn h0 h1 (fun rd const => hconst rd const hs) h

end ValuesIn

/-- Settles O34: 0, 1 and every 21-bit constant are below 2^21. -/
theorem stepKeepsValuesBelowTheConstantRange : Obligations.StepKeepsValuesBelowTheConstantRange := by
  unfold Obligations.StepKeepsValuesBelowTheConstantRange
  intro s t h hstep
  rw [State.valuesBelow_iff_valuesIn] at h ⊢
  refine h.step (by decide) (by decide) (fun rd const _ _ => ?_) hstep
  rw [constValue_toNat]
  exact const.isLt

/-! ## The width of the reference machine (O35) -/

/-- Every register and every cell of the reference machine holds a value below `bound`. -/
structure RefState.ValuesBelow (bound : Nat) (r : RefState) : Prop where
  regs : ∀ i, r.x i < bound
  cells : ∀ a, r.mem a < bound

@[simp] theorem refFit_none (v : Nat) : refFit none v = v := rfl

/-- A value that fits the width is held as it is. -/
theorem refFit_some_of_lt {m n v : Nat} (hn : m ≤ n) (hv : v < 2 ^ m) : refFit (some n) v = v :=
  Nat.mod_eq_of_lt (Nat.lt_of_lt_of_le hv (Nat.pow_le_pow_right (by decide) hn))

theorem refSlice_lt (w hi lo : Nat) : refSlice w hi lo < 2 ^ (hi - lo + 1) :=
  Nat.mod_lt _ (Nat.two_pow_pos _)

theorem refSet_lt {f : Nat → Nat} {bound v : Nat} (hf : ∀ j, f j < bound) (hv : v < bound) (i j : Nat) :
    refSet f i v j < bound := by
  unfold refSet
  split
  · exact hv
  · exact hf j

theorem refReset_valuesBelow : refReset.ValuesBelow (2 ^ 21) :=
  ⟨fun _ => Nat.two_pow_pos 21, fun _ => Nat.two_pow_pos 21⟩

section Width

variable {r : RefState}

/-- On values below 2^21, the width is seen in no effect: each value a word writes is its 21-bit constant or a value held
already. -/
theorem refEffect_some_eq_none {n : Nat} (hn : 21 ≤ n) (w : Nat) (h : r.ValuesBelow (2 ^ 21)) :
    refEffect (some n) w r = refEffect none w r := by
  have hconst : refFit (some n) (refSlice w 30 10) = refSlice w 30 10 := refFit_some_of_lt hn (refSlice_lt w 30 10)
  have hreg (i : Nat) : refFit (some n) (r.x i) = r.x i := refFit_some_of_lt hn (h.regs i)
  have hcell (a : Nat) : refFit (some n) (r.mem a) = r.mem a := refFit_some_of_lt hn (h.cells a)
  simp only [refEffect, hconst, hreg, hcell, refFit_none]

/-- No word makes a value of 2^21 or more where there was none. The cases are the opcodes in the order of R131, each with
its bounds check met and not met. -/
theorem RefState.ValuesBelow.refEffect (h : r.ValuesBelow (2 ^ 21)) (w : Nat) :
    (refEffect none w r).ValuesBelow (2 ^ 21) := by
  unfold Machine.refEffect
  split
  · exact ⟨refSet_lt h.regs (refSlice_lt w 30 10) _, h.cells⟩
  · split
    · split
      · exact ⟨refSet_lt h.regs (h.cells _) _, h.cells⟩
      · exact h
    · split
      · split
        · exact ⟨h.regs, refSet_lt h.cells (h.regs _) _⟩
        · exact h
      · split
        · split
          · exact ⟨h.regs, refSet_lt h.cells (by split <;> decide) _⟩
          · exact h
        · exact h

theorem refStep_some_eq_none {n : Nat} (hn : 21 ≤ n) (stream : List Byte) (h : r.ValuesBelow (2 ^ 21)) :
    refStep (some n) stream r = refStep none stream r := by
  unfold refStep
  rw [refEffect_some_eq_none hn _ h]

theorem RefState.ValuesBelow.refStep (h : r.ValuesBelow (2 ^ 21)) (stream : List Byte) :
    (refStep none stream r).ValuesBelow (2 ^ 21) :=
  have he := h.refEffect (refWord ((stream.drop r.ip).take 8))
  ⟨he.regs, he.cells⟩

theorem refLoop_some_eq_none {n : Nat} (hn : 21 ≤ n) (stream : List Byte) (k : Nat) (h : r.ValuesBelow (2 ^ 21)) :
    refLoop (some n) stream k r = refLoop none stream k r := by
  induction k generalizing r with
  | zero => rfl
  | succ k ih => rw [refLoop, refLoop, refStep_some_eq_none hn stream h, ih (h.refStep stream)]

theorem RefState.ValuesBelow.refLoop (h : r.ValuesBelow (2 ^ 21)) (stream : List Byte) (k : Nat) :
    (refLoop none stream k r).ValuesBelow (2 ^ 21) := by
  induction k generalizing r with
  | zero => exact h
  | succ k ih =>
    rw [Machine.refLoop]
    split
    · exact ih (h.refStep stream)
    · exact h

end Width

/-- Settles O35: the values of a run from reset stay below 2^21, where no width of 21 bits or more is seen. -/
theorem widthIsNotObservableFromReset : Obligations.WidthIsNotObservableFromReset := by
  unfold Obligations.WidthIsNotObservableFromReset
  intro n hn stream k
  have hbelow := refReset_valuesBelow.refLoop stream k
  exact ⟨refLoop_some_eq_none hn stream k refReset_valuesBelow, hbelow.regs, hbelow.cells⟩

end Sys2Proof.Machine

/-! # Proofs: the statements of the state chapter (`10_state.md`) -/

namespace Sys2Proof.Machine

/-! ## What an instruction does to `ip`, to the stream and to the canonical form -/

/-- Every instruction answers a next state (R106, R111). -/
theorem exec_next (i : Instr) (s : State) : ∃ t, exec i s = .next t := by
  cases i <;> exact ⟨_, rfl⟩

section Effect

variable {i : Instr} {s t : State}

/-- Every effect ends with `ip + 8` (R17). -/
theorem Effect.ip (he : Effect i s t) : t.ip = s.ip + 8 := by
  cases he <;> simp

/-- No effect reaches the stream (R41). -/
theorem Effect.stream (he : Effect i s t) : t.stream = s.stream := by
  cases he <;> simp

/-- Every effect keeps the canonical form of the memory: a store is guarded, so it lists no address from 65536 up. -/
theorem Effect.memCanonical (he : Effect i s t) (h : s.mem.wf = true) : t.mem.wf = true := by
  cases he with
  | loadConst rd const => exact h
  | load rbase rd off => rwa [advance_mem, loadCell_mem]
  | store rdata rbase off => exact wf_storeCell h _ _
  | compare raddr memaddr rleft => exact wf_storeCell h _ _
  | compareSkipped => exact h
  | noOp => exact h

end Effect

/-! ## What a step can do -/

/-- The inversion lemma for a step: a halted machine stays as it is, and a running one has the effect of the word at `ip`. -/
theorem step_cases {s t : State} (h : step s = .next t) :
    halted s = true ∧ t = s ∨ halted s = false ∧ Effect (decodeWord (fetchWord s)) s t := by
  cases hs : halted s with
  | true =>
    rw [step_of_halted hs] at h
    cases h
    exact .inl ⟨rfl, rfl⟩
  | false =>
    rw [step_of_running hs] at h
    exact .inr ⟨rfl, exec_effect h⟩

theorem step_stream {s t : State} (h : step s = .next t) : t.stream = s.stream := by
  obtain ⟨-, rfl⟩ | ⟨-, he⟩ := step_cases h
  · rfl
  · exact he.stream

/-- With 8 stream bytes left, a step answers a state further on by 8 in the same stream (R17). -/
theorem step_next_of_running {s : State} (h : s.ip + 8 ≤ s.stream.length) :
    ∃ t, step s = .next t ∧ t.ip = s.ip + 8 ∧ t.stream = s.stream := by
  obtain ⟨t, ht⟩ := exec_next (decodeWord (fetchWord s)) s
  have he := exec_effect ht
  exact ⟨t, (step_of_running ((halted_eq_false_iff s).2 h)).trans ht, he.ip, he.stream⟩

/-! ## The invariant (O32, O33) -/

/-- A step keeps the invariant: `ip` moves by 8, and only while 8 stream bytes are left. -/
theorem State.Inv.step {s t : State} (h : s.Inv) (hstep : step s = .next t) : t.Inv := by
  obtain ⟨-, rfl⟩ | ⟨hs, he⟩ := step_cases hstep
  · exact h
  · rw [halted_eq_false_iff] at hs
    have haligned := h.ipAligned
    refine ⟨he.memCanonical h.memCanonical, ?_, ?_⟩
    · rw [he.ip]
      omega
    · rwa [he.ip, he.stream]

/-- Settles O32: a store that is skipped out of bounds keeps the memory canonical, and `ip` moves by 8 within the stream. -/
theorem stepKeepsTheInvariant : Obligations.StepKeepsTheInvariant :=
  fun _ _ h hstep => h.step hstep

theorem State.Inv.load (stream : List Byte) : (State.load stream).Inv :=
  ⟨Memory.wf_nil, rfl, Nat.zero_le _⟩

/-- Settles O33: the memory is empty and `ip` is 0. -/
theorem startStatesMeetTheInvariant : Obligations.StartStatesMeetTheInvariant :=
  fun stream => ⟨State.Inv.load stream, State.Inv.load []⟩

/-! ## States that read alike (O10, O9) -/

/-- Canonical memories that read alike are the same list: rising addresses leave one order for the cells listed. -/
theorem Memory.ext_of_read {m n : Memory} (hm : m.wf = true) (hn : n.wf = true) (h : ∀ a, m.read a = n.read a) :
    m = n := by
  have hsame (c : Nat × Word) : c ∈ m ↔ c ∈ n := by
    rw [Memory.mem_iff_read hm c.1 c.2, Memory.mem_iff_read hn c.1 c.2, h c.1]
  have : Std.Irrefl fun c d : Nat × Word => c.1 < d.1 := ⟨fun c => Nat.lt_irrefl c.1⟩
  have : Std.Antisymm fun c d : Nat × Word => c.1 < d.1 := ⟨fun _ _ hcd hdc => absurd hdc (Nat.lt_asymm hcd)⟩
  exact ((Memory.wf_iff m).1 hm).1.eq_of_mem_iff ((Memory.wf_iff n).1 hn).1 hsame

/-- Settles O10: each of the four fields is equal. -/
theorem statesThatReadAlikeAreEqual : Obligations.StatesThatReadAlikeAreEqual := by
  unfold Obligations.StatesThatReadAlikeAreEqual
  intro s t hs ht hregs hcells hip hstream
  have hx : s.x = t.x := x_ext_of_readReg hregs
  have hmem : s.mem = t.mem := Memory.ext_of_read hs ht hcells
  calc
    s = ⟨s.x, s.mem, s.ip, s.stream⟩ := rfl
    _ = ⟨t.x, t.mem, t.ip, t.stream⟩ := by rw [hx, hmem, hip, hstream]
    _ = t := rfl

/-- Settles O9: the start state reads 0 everywhere, and what reads so is the start state by O10. -/
theorem resetLeavesEverythingZero : Obligations.ResetLeavesEverythingZero := by
  unfold Obligations.ResetLeavesEverythingZero
  refine ⟨rfl, fun stream => ⟨readReg_load stream, memRead_load stream, rfl, rfl, halted_iff _, ?_⟩⟩
  intro s hwf hregs hcells hip hstream
  exact statesThatReadAlikeAreEqual s (State.load stream) hwf Memory.wf_nil
    (fun r => (hregs r).trans (readReg_load stream r).symm) hcells hip hstream

/-! ## What an instruction writes and reads of the registers (O20, O21) -/

/-- Settles O20: of all effects only the two loads can make a register read differently. -/
theorem onlyLoadsChangeARegister : Obligations.OnlyLoadsChangeARegister := by
  unfold Obligations.OnlyLoadsChangeARegister
  intro i s t r h hne
  cases exec_effect h with
  | loadConst rd const hi =>
    by_cases hr : r = rd
    · exact .inl ⟨const, hr ▸ hi⟩
    · exact absurd (readReg_writeReg_other s _ hr) hne
  | load rbase rd off hi =>
    rw [readReg_advance, readReg_loadCell] at hne
    by_cases hc : r = rd ∧ baseOffsetAddr s rbase off < 65536
    · obtain ⟨rfl, ha⟩ := hc
      exact .inr ⟨rbase, off, hi, ha⟩
    · exact absurd (if_neg hc) hne
  | store rdata rbase off => exact absurd (readReg_storeCell s _ _ r) hne
  | compare raddr memaddr rleft => exact absurd (readReg_storeCell s _ _ r) hne
  | compareSkipped => exact absurd rfl hne
  | noOp => exact absurd rfl hne

section AgreeingStates

variable {s s' : State}

theorem baseOffsetAddr_congr {rbase : RegIdx} (h : readReg s rbase = readReg s' rbase)
    (off : BitVec Config.offsetBits) : baseOffsetAddr s rbase off = baseOffsetAddr s' rbase off := by
  unfold baseOffsetAddr; rw [h]

theorem registerAddr_congr {raddr : RegIdx} (h : readReg s raddr = readReg s' raddr) :
    registerAddr s raddr = registerAddr s' raddr := by
  unfold registerAddr; rw [h]

/-- The same address loaded from equal cells: the destination reads alike afterwards, or the load was skipped in both. -/
theorem readReg_loadCell_congr (hcells : ∀ a, memRead s a = memRead s' a) (a : Nat) (rd r : RegIdx) :
    readReg (loadCell s a rd) r = readReg (loadCell s' a rd) r ∨
      readReg (loadCell s a rd) r = readReg s r ∧ readReg (loadCell s' a rd) r = readReg s' r := by
  simp only [readReg_loadCell]
  split
  · exact .inl (hcells a)
  · exact .inr ⟨rfl, rfl⟩

/-- The same value stored at the same address keeps cells alike. -/
theorem memRead_storeCell_congr (hcells : ∀ a, memRead s a = memRead s' a) (a : Nat) (v : Word) (b : Nat) :
    memRead (storeCell s a v) b = memRead (storeCell s' a v) b := by
  rw [memRead_storeCell, memRead_storeCell, hcells b]

end AgreeingStates

/-- Settles O21: each effect is a function of the registers named and of the cells. -/
theorem onlyTheNamedRegistersAreRead : Obligations.OnlyTheNamedRegistersAreRead := by
  unfold Obligations.OnlyTheNamedRegistersAreRead
  intro i s s' t t' hregs hcells h h'
  cases exec_effect h with
  | loadConst rd const hi =>
    subst hi
    cases h'
    refine ⟨hcells, fun r => ?_⟩
    rw [readReg_advance, readReg_advance, readReg_writeReg, readReg_writeReg]
    split
    · exact .inl rfl
    · exact .inr ⟨rfl, rfl⟩
  | load rbase rd off hi =>
    subst hi
    cases h'
    rw [baseOffsetAddr_congr (hregs rbase (by simp [readRegs])) off]
    refine ⟨fun a => ?_, readReg_loadCell_congr hcells _ rd⟩
    rw [memRead_advance, memRead_advance, memRead_loadCell, memRead_loadCell, hcells a]
  | store rdata rbase off hi =>
    subst hi
    cases h'
    have hdata : readReg s rdata = readReg s' rdata := hregs rdata (by simp [readRegs])
    rw [baseOffsetAddr_congr (hregs rbase (by simp [readRegs])) off, hdata]
    exact ⟨memRead_storeCell_congr hcells _ _, fun r => .inr ⟨readReg_storeCell s _ _ r, readReg_storeCell s' _ _ r⟩⟩
  | compare raddr memaddr rleft hi hc =>
    subst hi
    rw [exec_greaterOrEqual, storeComparison_eq, if_pos hc] at h'
    cases h'
    have hleft : readReg s rleft = readReg s' rleft := hregs rleft (by simp [readRegs])
    rw [registerAddr_congr (hregs raddr (by simp [readRegs])), hleft, hcells]
    exact ⟨memRead_storeCell_congr hcells _ _, fun r => .inr ⟨readReg_storeCell s _ _ r, readReg_storeCell s' _ _ r⟩⟩
  | compareSkipped raddr memaddr rleft hi hc =>
    subst hi
    rw [exec_greaterOrEqual, storeComparison_eq, if_neg (Nat.not_lt.2 hc)] at h'
    cases h'
    exact ⟨hcells, fun r => .inr ⟨rfl, rfl⟩⟩
  | noOp hi =>
    rw [exec_of_mem_noOpInstrs hi] at h'
    cases h'
    exact ⟨hcells, fun r => .inr ⟨rfl, rfl⟩⟩

/-! ## The instruction pointer of a run (O24, O28, O29) -/

/-- Settles O24: an instruction answers a next state, and every effect ends with `ip + 8`. -/
theorem everyStepAdvancesByEight : Obligations.EveryStepAdvancesByEight := by
  unfold Obligations.EveryStepAdvancesByEight
  refine ⟨fun i s => ?_, fun s h => ?_⟩
  · obtain ⟨t, ht⟩ := exec_next i s
    exact ⟨t, ht, (exec_effect ht).ip⟩
  · obtain ⟨t, ht, hip, -⟩ := step_next_of_running h
    exact ⟨t, ht, hip⟩

/-- A halted machine stays as it is however many steps are asked of it (R14; log entry 3). -/
theorem run_of_halted {s : State} (h : halted s = true) (k : Nat) : run k s = .next s := by
  induction k with
  | zero => rfl
  | succ k ih => rw [run_succ_of_step (step_of_halted h), ih]

theorem run_stream {k : Nat} {s t : State} (h : run k s = .next t) : t.stream = s.stream :=
  run_keeps (P := fun u => u.stream = s.stream) (fun _ _ hu hstep => (step_stream hstep).trans hu) rfl h

theorem State.Inv.run {k : Nat} {s t : State} (hs : s.Inv) (h : run k s = .next t) : t.Inv :=
  run_keeps (fun _ _ hu hstep => hu.step hstep) hs h

/-- Settles O28: in a run `ip` is bound by the invariant. -/
theorem haltedMachineNeverChanges : Obligations.HaltedMachineNeverChanges := by
  unfold Obligations.HaltedMachineNeverChanges
  refine ⟨halted_iff, fun s k h => run_of_halted h k, fun stream k t h => ?_⟩
  have hinv := (State.Inv.load stream).run h
  have hstream : t.stream = stream := run_stream h
  exact ⟨hinv.ipAligned, hstream ▸ hinv.ipInStream⟩

/-- As many steps as there are words left each run one: after `k` of them `ip` is further on by `8k` (R122). -/
theorem run_next_of_words {k : Nat} {s : State} (h : s.ip + 8 * k ≤ s.stream.length) :
    ∃ t, run k s = .next t ∧ t.ip = s.ip + 8 * k ∧ t.stream = s.stream := by
  induction k generalizing s with
  | zero => exact ⟨s, rfl, rfl, rfl⟩
  | succ k ih =>
    obtain ⟨u, hstep, hip, hstream⟩ := step_next_of_running (s := s) (by omega)
    obtain ⟨t, hrun, hip', hstream'⟩ := ih (s := u) (by rw [hip, hstream]; omega)
    exact ⟨t, (run_succ_of_step hstep).trans hrun, by omega, hstream'.trans hstream⟩

/-- Settles O29: at `ip = 8k` fewer than 8 bytes are left exactly when `k` words are all the stream has. -/
theorem runHaltsAfterExactlyItsWords : Obligations.RunHaltsAfterExactlyItsWords := by
  unfold Obligations.RunHaltsAfterExactlyItsWords
  intro stream k hk
  obtain ⟨t, hrun, hip, hstream⟩ := run_next_of_words (k := k) (s := State.load stream)
    (by rw [load_ip, load_stream]; omega)
  rw [load_ip, Nat.zero_add] at hip
  rw [load_stream] at hstream
  refine ⟨t, hrun, hip, ?_⟩
  rw [halted_iff, hip, hstream]
  omega

/-! ## Bytes after the last whole word (O30) -/

/-- The result of a stream is the registers and the memory of the state its run ends in (R128). -/
theorem execute_eq_run (stream : List Byte) :
    ∃ t, run (stream.length / 8) (State.load stream) = .next t ∧ execute stream = some (t.x, t.mem) := by
  obtain ⟨t, hrun, -, hhalted⟩ := runHaltsAfterExactlyItsWords stream _ (Nat.le_refl _)
  have hreadOut : readOut t = some (t.x, t.mem) := if_pos (hhalted.2 rfl)
  refine ⟨t, hrun, ?_⟩
  rw [execute, wordCount, hrun]
  exact hreadOut

/-- The state `s` with further bytes at the end of its stream. -/
def State.withTail (s : State) (tail : List Byte) : State :=
  { s with stream := s.stream ++ tail }

section WithTail

variable {s t : State} (tail : List Byte)

@[simp] theorem withTail_ip : (s.withTail tail).ip = s.ip := rfl
@[simp] theorem withTail_stream : (s.withTail tail).stream = s.stream ++ tail := rfl
@[simp] theorem withTail_load (stream : List Byte) :
    (State.load stream).withTail tail = State.load (stream ++ tail) := rfl

theorem loadCell_withTail (a : Nat) (rd : RegIdx) :
    loadCell (s.withTail tail) a rd = (loadCell s a rd).withTail tail := by
  unfold loadCell; split <;> rfl

theorem storeCell_withTail (a : Nat) (v : Word) :
    storeCell (s.withTail tail) a v = (storeCell s a v).withTail tail := by
  unfold storeCell; split <;> rfl

/-- No instruction sees the stream: its effect is the same with further bytes there. -/
theorem exec_withTail {i : Instr} (h : exec i s = .next t) :
    exec i (s.withTail tail) = .next (t.withTail tail) := by
  cases exec_effect h with
  | loadConst rd const hi =>
    subst hi
    rfl
  | load rbase rd off hi =>
    subst hi
    rw [exec_readValue, loadCell_withTail]
    rfl
  | store rdata rbase off hi =>
    subst hi
    rw [exec_writeValue, storeCell_withTail]
    rfl
  | compare raddr memaddr rleft hi hc =>
    subst hi
    rw [exec_greaterOrEqual, storeComparison_eq, if_pos hc, storeCell_withTail]
    rfl
  | compareSkipped raddr memaddr rleft hi hc =>
    subst hi
    rw [exec_greaterOrEqual, storeComparison_eq, if_neg (Nat.not_lt.2 hc)]
    rfl
  | noOp hi => exact exec_of_mem_noOpInstrs hi _

/-- A whole word left in the stream is fetched the same with further bytes after it. -/
theorem fetchWord_withTail (h : s.ip + 8 ≤ s.stream.length) : fetchWord (s.withTail tail) = fetchWord s := by
  have hread : streamRead (s.stream ++ tail) s.ip = streamRead s.stream s.ip := by
    rw [streamRead, streamRead, List.drop_append_of_le_length (by omega),
      List.take_append_of_le_length (by rw [List.length_drop]; exact Nat.le_sub_of_add_le' h)]
  exact congrArg wordOfBytes hread

theorem step_withTail (h : s.ip + 8 ≤ s.stream.length) (hstep : step s = .next t) :
    step (s.withTail tail) = .next (t.withTail tail) := by
  have hs' : halted (s.withTail tail) = false := by
    rw [halted_eq_false_iff, withTail_ip, withTail_stream, List.length_append]
    omega
  rw [step_of_running ((halted_eq_false_iff s).2 h)] at hstep
  rw [step_of_running hs', fetchWord_withTail tail h]
  exact exec_withTail tail hstep

/-- As long as whole words are left, a run goes the same way with further bytes after them. -/
theorem run_withTail {k : Nat} (h : s.ip + 8 * k ≤ s.stream.length) (hrun : run k s = .next t) :
    run k (s.withTail tail) = .next (t.withTail tail) := by
  induction k generalizing s with
  | zero =>
    cases hrun
    rfl
  | succ k ih =>
    have hword : s.ip + 8 ≤ s.stream.length := by omega
    obtain ⟨u, hstep, hip, hstream⟩ := step_next_of_running hword
    rw [run_succ_of_step hstep] at hrun
    rw [run_succ_of_step (step_withTail tail hword hstep)]
    exact ih (by rw [hip, hstream]; omega) hrun

end WithTail

/-- Settles O30: the tail holds no whole word, so both runs take the same steps and end in the same registers and memory. -/
theorem trailingBytesAreDiscarded : Obligations.TrailingBytesAreDiscarded := by
  unfold Obligations.TrailingBytesAreDiscarded
  intro stream tail hwhole htail
  obtain ⟨t, hrun, hresult⟩ := execute_eq_run stream
  obtain ⟨u, hrun', hresult'⟩ := execute_eq_run (stream ++ tail)
  have hcount : (stream ++ tail).length / 8 = stream.length / 8 := by
    rw [List.length_append]
    omega
  have hwords : 0 + 8 * (stream.length / 8) ≤ stream.length := by omega
  have hu : (.next u : Result) = .next (t.withTail tail) := by
    rw [← hrun', hcount, ← withTail_load]
    exact run_withTail tail hwords hrun
  cases hu
  exact hresult'.trans hresult.symm

end Sys2Proof.Machine

/-! # Proofs: the statements of the memory chapter (`20_memory.md`) -/

namespace Sys2Proof

/-! ## The word of eight bytes (O1) -/

/-- `n` bytes make a word below `2^(8n)`: no bit of it comes from a byte past the last. -/
theorem wordOfBytes_toNat_lt (bs : List Byte) : (wordOfBytes bs).toNat < 2 ^ (8 * bs.length) := by
  rw [toNat_lt_two_pow_iff]
  intro i hi hi64
  rw [wordOfBytes_getLsbD bs hi64, List.getD_eq_default _ _ (by omega)]
  exact BitVec.getLsbD_zero

/-- A byte in front of at most seven others adds its value, and raises theirs by one byte: the shift loses no bit, and the
two operands of the or have none in common. -/
theorem wordOfBytes_cons_toNat (b : Byte) {bs : List Byte} (h : bs.length < 8) :
    (wordOfBytes (b :: bs)).toNat = b.toNat + 256 * (wordOfBytes bs).toNat := by
  have hlt : (wordOfBytes bs).toNat < 2 ^ 56 :=
    Nat.lt_of_lt_of_le (wordOfBytes_toNat_lt bs) (Nat.pow_le_pow_right (by decide) (by omega))
  have hlow : (b.setWidth 64).toNat = b.toNat := BitVec.toNat_setWidth_of_le (by decide)
  have hshift : (wordOfBytes bs <<< 8).toNat = 2 ^ 8 * (wordOfBytes bs).toNat := by
    rw [BitVec.toNat_shiftLeft, Nat.shiftLeft_eq, Nat.mul_comm]
    exact Nat.mod_eq_of_lt (show _ < 2 ^ 64 by omega)
  rw [wordOfBytes, BitVec.toNat_or, hlow, hshift, Nat.or_comm, ← Nat.two_pow_add_eq_or_of_lt b.isLt, Nat.add_comm]

/-- The word of up to eight bytes, formed by shifts and ors, has the value that the reference machine reads as a sum (R30). -/
theorem wordOfBytes_toNat {bs : List Byte} (h : bs.length ≤ 8) : (wordOfBytes bs).toNat = Machine.refWord bs := by
  induction bs with
  | nil => rfl
  | cons b bs ih => rw [wordOfBytes_cons_toNat b h, ih (Nat.le_of_succ_le h), Machine.refWord]

end Sys2Proof

namespace Sys2Proof.Machine

/-- Settles O1: the reference machine's sum, multiplied out, and the bits as in every little-endian word. -/
theorem fetchedWordIsLittleEndianSum : Obligations.FetchedWordIsLittleEndianSum := by
  unfold Obligations.FetchedWordIsLittleEndianSum
  intro b0 b1 b2 b3 b4 b5 b6 b7
  refine ⟨?_, fun i hi => wordOfBytes_getLsbD _ hi⟩
  rw [wordOfBytes_toNat]
  · simp only [refWord]
    omega
  · exact Nat.le_refl 8

/-! ## Loads and stores that change nothing (O17, O19) -/

/-- Settles O17: out of bounds the guarded load and the guarded store are the identity. -/
theorem outOfBoundsAccessesAreSkipped : Obligations.OutOfBoundsAccessesAreSkipped := by
  unfold Obligations.OutOfBoundsAccessesAreSkipped
  intro r q off s h
  have h : 65536 ≤ baseOffsetAddr s r off := h
  rw [exec_readValue, exec_writeValue, loadCell_out h, storeCell_out h]
  exact ⟨rfl, rfl⟩

/-- Writing back what an address reads leaves a canonical memory the same list. -/
theorem Memory.write_read_self {m : Memory} {a : Nat} (hm : m.wf = true) (ha : a < 65536) :
    m.write a (m.read a) = m := by
  refine Memory.ext_of_read (Memory.wf_write _ hm ha) hm fun b => ?_
  rw [Memory.read_write]
  split
  · next hb => rw [hb]
  · rfl

/-- A guarded store of the value that the cell holds is the identity, in bounds and out of bounds. -/
theorem storeCell_memRead_self {s : State} (hs : s.mem.wf = true) (a : Nat) : storeCell s a (memRead s a) = s := by
  by_cases ha : a < 65536
  · rw [storeCell_in ha, memWrite, memRead, Memory.write_read_self hs ha]
  · exact storeCell_out (Nat.le_of_not_lt ha) _

/-- Settles O19: the value stored is the one that the cell holds. -/
theorem storingTheHeldValueChangesNothing : Obligations.StoringTheHeldValueChangesNothing := by
  unfold Obligations.StoringTheHeldValueChangesNothing
  intro rdata rbase off s hs h
  have h : memRead s (baseOffsetAddr s rbase off) = readReg s rdata := h
  rw [exec_writeValue, ← h, storeCell_memRead_self hs]
  rfl

/-! ## What changes a cell (O22) -/

/-- A cell that a guarded store changed is the one it addressed, in bounds. -/
theorem of_memRead_storeCell_ne {s : State} {a b : Nat} {v : Word} (h : memRead (storeCell s a v) b ≠ memRead s b) :
    b = a ∧ a < 65536 := by
  rw [memRead_storeCell] at h
  by_contra hc
  exact h (if_neg hc)

/-- Settles O22: of all effects only the two stores can make a cell read differently, and only the one they address. -/
theorem onlyStoresChangeACell : Obligations.OnlyStoresChangeACell := by
  unfold Obligations.OnlyStoresChangeACell
  intro i s t a h hne
  cases exec_effect h with
  | loadConst rd const => exact absurd rfl hne
  | load rbase rd off => exact absurd (memRead_loadCell s _ rd a) hne
  | store rdata rbase off hi =>
    obtain ⟨rfl, hlt⟩ := of_memRead_storeCell_ne hne
    exact ⟨hlt, .inl ⟨rdata, rbase, off, hi, rfl⟩⟩
  | compare raddr memaddr rleft hi hc =>
    obtain ⟨rfl, hlt⟩ := of_memRead_storeCell_ne hne
    exact ⟨hlt, .inr ⟨raddr, memaddr, rleft, hi, hc, rfl⟩⟩
  | compareSkipped => exact absurd rfl hne
  | noOp => exact absurd rfl hne

/-! ## The word that a run has come to (O31) -/

/-- A run that has not come to a halt has advanced `ip` by 8 in every step. -/
theorem run_ip_of_running {k : Nat} {s t : State} (hrun : run k s = .next t) (ht : halted t = false) :
    t.ip = s.ip + 8 * k := by
  induction k generalizing s with
  | zero =>
    cases hrun
    rfl
  | succ k ih =>
    cases hs : halted s with
    | true =>
      rw [run_of_halted hs] at hrun
      cases hrun
      exact absurd hs (by simp [ht])
    | false =>
      obtain ⟨u, hstep, hip, -⟩ := step_next_of_running ((halted_eq_false_iff s).1 hs)
      rw [run_succ_of_step hstep] at hrun
      rw [ih hrun, hip]
      ring

/-- Settles O31: the stream is kept, and `ip` is `8k`, where the `k`-th word of the stream begins. -/
theorem fetchSeesTheStreamTheRunBeganWith : Obligations.FetchSeesTheStreamTheRunBeganWith := by
  unfold Obligations.FetchSeesTheStreamTheRunBeganWith
  intro stream k t hrun
  have hstream : t.stream = stream := run_stream hrun
  refine ⟨hstream, fun ht => ?_⟩
  have hip : t.ip = 8 * k := by
    rw [run_ip_of_running hrun ht, load_ip, Nat.zero_add]
  rw [fetchWord, wordAt, hstream, hip]

end Sys2Proof.Machine

/-! # Proofs: the statements of the encoding chapter (`30_encoding.md`) -/

namespace Sys2Proof

/-! ## Packed fields read back (O6) -/

/-- A field packed with a natural value holds it cut to the field (R63). -/
theorem extractBits_setBits_natCast (w : InstrWord) (start len v : Nat) (h : start + len ≤ 64) :
    extractBits (setBits w start len v h) start len h = BitVec.ofNat len v := by
  apply BitVec.eq_of_getLsbD_eq
  intro j hj
  have hj64 : j < 64 := by omega
  rw [extractBits_setBits_same_getLsbD w start len v h hj, BitVec.ofInt_natCast, BitVec.getLsbD_ofNat,
    BitVec.getLsbD_ofNat]
  simp [hj, hj64]

/-- A field packed with a value of its own width holds that value. -/
theorem extractBits_setBits_toNat (w : InstrWord) (start : Nat) {len : Nat} (v : BitVec len) (h : start + len ≤ 64) :
    extractBits (setBits w start len v.toNat h) start len h = v := by
  rw [extractBits_setBits_natCast, BitVec.ofNat_toNat, BitVec.setWidth_eq]

/-- A register-index field packed with a register names that register. -/
theorem regField_setBits_same (w : InstrWord) (start : Nat) (r : RegIdx) (h : start + 6 ≤ 64) :
    regField (setBits w start 6 r.val h) start h = r := by
  apply Fin.ext
  calc (regField (setBits w start 6 r.val h) start h).val
    _ = (BitVec.ofNat 6 r.val).toNat := congrArg BitVec.toNat (extractBits_setBits_natCast w start 6 r.val h)
    _ = r.val := by rw [BitVec.toNat_ofNat, Nat.mod_eq_of_lt r.isLt]

/-- A register-index field that a packing does not touch names the register it named. -/
theorem regField_setBits_disjoint (w : InstrWord) {start len start' : Nat} (value : Int) (h : start + len ≤ 64)
    (h' : start' + Config.regIndexBits ≤ 64) (hd : start + len ≤ start' ∨ start' + Config.regIndexBits ≤ start) :
    regField (setBits w start len value h) start' h' = regField w start' h' := by
  exact Fin.ext (congrArg BitVec.toNat (extractBits_setBits_disjoint w value h h' hd))

/-! ## Decoding an encoded instruction (O6) -/

/-- The encoder writes the opcode of R53's table into field A. -/
theorem opcodeOf_encodeWord (i : Instr) : (opcodeOf (encodeWord i)).toNat = i.opcode := by
  cases i with
  | loadConst rd const => exact Laws.OpcodeField.loadConst rd const
  | readValue rbase rd off => exact Laws.OpcodeField.readValue rbase rd off
  | writeValue rdata rbase off => exact Laws.OpcodeField.writeValue rdata rbase off
  | greaterOrEqual raddr memaddr rleft => exact Laws.OpcodeField.greaterOrEqual raddr memaddr rleft
  | unrecognized0 => exact Laws.OpcodeField.unrecognized0
  | unrecognized1 => exact Laws.OpcodeField.unrecognized1
  | unrecognized2 => exact Laws.OpcodeField.unrecognized2
  | unrecognized4 => exact Laws.OpcodeField.unrecognized4
  | unrecognized6 => exact Laws.OpcodeField.unrecognized6
  | unrecognized7 => exact Laws.OpcodeField.unrecognized7
  | unrecognized8 => exact Laws.OpcodeField.unrecognized8
  | unrecognized9 => exact Laws.OpcodeField.unrecognized9
  | unrecognized11 => exact Laws.OpcodeField.unrecognized11
  | unrecognized12 => exact Laws.OpcodeField.unrecognized12
  | unrecognized13 => exact Laws.OpcodeField.unrecognized13
  | unrecognized15 => exact Laws.OpcodeField.unrecognized15

theorem encodeWord_toNat_mod (i : Instr) : (encodeWord i).toNat % 16 = i.opcode := by
  rw [← opcodeOf_toNat, opcodeOf_encodeWord]

theorem decodeLoadConst_encodeWord (rd : RegIdx) (const : BitVec Config.constBits) :
    decodeLoadConst (encodeWord (.loadConst rd const)) = .loadConst rd const := by
  simp (disch := decide) only [decodeLoadConst, encodeWord, packLoadConst, regField_setBits_disjoint,
    regField_setBits_same, extractBits_setBits_toNat]

theorem decodeReadValue_encodeWord (rbase rd : RegIdx) (off : BitVec Config.offsetBits) :
    decodeReadValue (encodeWord (.readValue rbase rd off)) = .readValue rbase rd off := by
  simp (disch := decide) only [decodeReadValue, encodeWord, packReadValue, regField_setBits_disjoint,
    regField_setBits_same, extractBits_setBits_toNat]

theorem decodeWriteValue_encodeWord (rdata rbase : RegIdx) (off : BitVec Config.offsetBits) :
    decodeWriteValue (encodeWord (.writeValue rdata rbase off)) = .writeValue rdata rbase off := by
  simp (disch := decide) only [decodeWriteValue, encodeWord, packWriteValue, regField_setBits_disjoint,
    regField_setBits_same, extractBits_setBits_toNat]

theorem decodeGreaterOrEqual_encodeWord (raddr : RegIdx) (memaddr : BitVec Config.memAddrBits) (rleft : RegIdx) :
    decodeGreaterOrEqual (encodeWord (.greaterOrEqual raddr memaddr rleft)) = .greaterOrEqual raddr memaddr rleft := by
  simp (disch := decide) only [decodeGreaterOrEqual, encodeWord, packGreaterOrEqual, regField_setBits_disjoint,
    extractBits_setBits_disjoint, regField_setBits_same, extractBits_setBits_toNat]

/-- The canonical word of an instruction decodes to it. -/
theorem decodeWord_encodeWord (i : Instr) : decodeWord (encodeWord i) = i := by
  have hop := encodeWord_toNat_mod i
  cases i with
  | loadConst rd const => rw [decodeWord_loadConst hop, decodeLoadConst_encodeWord]
  | readValue rbase rd off => rw [decodeWord_readValue hop, decodeReadValue_encodeWord]
  | writeValue rdata rbase off => rw [decodeWord_writeValue hop, decodeWriteValue_encodeWord]
  | greaterOrEqual raddr memaddr rleft => rw [decodeWord_greaterOrEqual hop, decodeGreaterOrEqual_encodeWord]
  | unrecognized0 => decide
  | unrecognized1 => decide
  | unrecognized2 => decide
  | unrecognized4 => decide
  | unrecognized6 => decide
  | unrecognized7 => decide
  | unrecognized8 => decide
  | unrecognized9 => decide
  | unrecognized11 => decide
  | unrecognized12 => decide
  | unrecognized13 => decide
  | unrecognized15 => decide

/-- The decoder reads a word back from its eight bytes, and hands back what follows them. -/
theorem decode_bytesOfWord_append (w : InstrWord) (rest : List Byte) :
    decode (bytesOfWord w ++ rest) = .ok (decodeWord w, rest) := by
  have hlen : (bytesOfWord w).length = 8 := bytesOfWord_length w
  rw [decode_of_length_ge (by rw [List.length_append]; omega), List.take_left' hlen, List.drop_left' hlen,
    wordOfBytes_bytesOfWord]

/-- Settles O6: the bytes are those of the canonical word, whose fields hold the operands. -/
theorem decodeOfEncodeIsTheInstruction : Obligations.DecodeOfEncodeIsTheInstruction := by
  unfold Obligations.DecodeOfEncodeIsTheInstruction
  intro i rest
  rw [encode, decode_bytesOfWord_append, decodeWord_encodeWord]

/-! ## The unmarshaller (O2) -/

/-- Eight bytes from an offset on, one by one. -/
theorem streamRead_eq_getD {stream : List Byte} {off : Nat} (h : off + 8 ≤ stream.length) :
    Machine.streamRead stream off =
      [stream.getD off 0, stream.getD (off + 1) 0, stream.getD (off + 2) 0, stream.getD (off + 3) 0,
        stream.getD (off + 4) 0, stream.getD (off + 5) 0, stream.getD (off + 6) 0, stream.getD (off + 7) 0] := by
  apply List.ext_getElem (Machine.streamRead_length h)
  intro k hk hk'
  have hk8 : k < 8 := hk'
  have hget : (Machine.streamRead stream off)[k] = stream.getD (off + k) 0 := by
    simp only [Machine.streamRead, List.getElem_take, List.getElem_drop]
    rw [List.getD_eq_getElem _ _ (by omega)]
  rw [hget]
  interval_cases k <;> rfl

/-- The fold of `wordOfBytes` multiplied out: byte `k` shifted up by `8k` (R51). -/
theorem wordOfBytes_eq_shifts (b0 b1 b2 b3 b4 b5 b6 b7 : Byte) :
    wordOfBytes [b0, b1, b2, b3, b4, b5, b6, b7] =
      b0.setWidth 64 ||| (b1.setWidth 64 <<< 8) ||| (b2.setWidth 64 <<< 16) ||| (b3.setWidth 64 <<< 24)
        ||| (b4.setWidth 64 <<< 32) ||| (b5.setWidth 64 <<< 40) ||| (b6.setWidth 64 <<< 48)
        ||| (b7.setWidth 64 <<< 56) := by
  simp only [wordOfBytes, BitVec.shiftLeft_or_distrib, ← BitVec.shiftLeft_add, BitVec.zero_shiftLeft, BitVec.or_zero,
    BitVec.or_assoc, Nat.reduceAdd]

/-- A field is the word shifted down and masked (R51). -/
theorem extractBits_setWidth (w : InstrWord) (start len : Nat) (h : start + len ≤ 64) :
    (extractBits w start len h).setWidth 64 = (w >>> start) &&& ((1#64 <<< len) - 1#64) := by
  apply BitVec.eq_of_getLsbD_eq
  intro i hi
  rw [BitVec.getLsbD_setWidth, extractBits_getLsbD, BitVec.getLsbD_and, BitVec.getLsbD_ushiftRight,
    mask_getLsbD (by omega), Bool.and_comm (w.getLsbD _)]
  simp [hi]

/-- Settles O2: the eight bytes at `ip`, their word, and a field of it, each by its own lemma. -/
theorem unmarshallerShiftsAndMasks : Obligations.UnmarshallerShiftsAndMasks := by
  unfold Obligations.UnmarshallerShiftsAndMasks
  refine ⟨fun s h => ?_, wordOfBytes_eq_shifts, extractBits_setWidth⟩
  rw [Machine.fetchWord, streamRead_eq_getD h]

/-! ## Packing (O3) -/

/-- Bit `(start + i) mod 8` of byte `(start + i) div 8` of a packed word is bit `i` of the value. -/
theorem bytesOfWord_setBits_getLsbD (w : InstrWord) (start len v : Nat) (h : start + len ≤ 64) {i : Nat}
    (hi : i < len) :
    ((bytesOfWord (setBits w start len v h)).getD ((start + i) / 8) 0).getLsbD ((start + i) % 8) = v.testBit i := by
  have hbit : 8 * ((start + i) / 8) + (start + i) % 8 = start + i := Nat.div_add_mod _ 8
  have hmod : (start + i) % 8 < 8 := Nat.mod_lt _ (by decide)
  have hi64 : i < 64 := by omega
  rw [bytesOfWord_getD _ (by omega), extractBits_getLsbD, hbit, setBits_getLsbD _ _ _ _ _ (by omega),
    if_pos (by omega), Nat.add_sub_cancel_left, BitVec.ofInt_natCast, BitVec.getLsbD_ofNat]
  simp [hmod, hi64]

/-- Settles O3: the formula is the definition at a natural value, and the rest is read off bit by bit. -/
theorem packThenExtractCutsToField : Obligations.PackThenExtractCutsToField := by
  unfold Obligations.PackThenExtractCutsToField
  intro w start len v h
  refine ⟨?_, ?_, fun i hi => bytesOfWord_setBits_getLsbD w start len v h hi, fun i hi hout => ?_⟩
  · rw [setBits, BitVec.ofInt_natCast]
  · rw [extractBits_setBits_natCast, BitVec.toNat_ofNat]
  · rw [setBits_getLsbD w start len v h hi, if_neg hout]

/-! ## The decoder by its layouts (O4) -/

/-- Any other value of field A selects a no-op slot (R60). -/
theorem decodeWord_mem_noOpInstrs {w : InstrWord} (h14 : w.toNat % 16 ≠ 14) (h5 : w.toNat % 16 ≠ 5)
    (h3 : w.toNat % 16 ≠ 3) (h10 : w.toNat % 16 ≠ 10) : decodeWord w ∈ Machine.noOpInstrs := by
  unfold decodeWord
  rw [opcodeOf_toNat]
  split
  case h_1 | h_2 | h_3 | h_4 => contradiction
  all_goals decide

/-- Field A of a word is the opcode of the instruction it decodes to (R53). -/
theorem opcode_decodeWord (w : InstrWord) : (decodeWord w).opcode = w.toNat % 16 := by
  have hlt : w.toNat % 16 < 16 := Nat.mod_lt _ (by decide)
  unfold decodeWord
  rw [opcodeOf_toNat]
  generalize w.toNat % 16 = a at hlt ⊢
  interval_cases a <;> rfl

/-- Settles O4: each arm's operands are fields, and a field's value is its slice. -/
theorem decodeFollowsTheLayouts : Obligations.DecodeFollowsTheLayouts := by
  unfold Obligations.DecodeFollowsTheLayouts
  intro w
  refine ⟨fun h => ?_, fun h => ?_, fun h => ?_, fun h => ?_, fun h14 h5 h3 h10 => ?_⟩
  · exact ⟨_, _, decodeWord_loadConst h, regField_val w 4 _, extractBits_toNat w 10 _ _⟩
  · exact ⟨_, _, _, decodeWord_readValue h, regField_val w 4 _, regField_val w 10 _, extractBits_toNat w 16 _ _⟩
  · exact ⟨_, _, _, decodeWord_writeValue h, regField_val w 4 _, regField_val w 10 _, extractBits_toNat w 16 _ _⟩
  · exact ⟨_, _, _, decodeWord_greaterOrEqual h, regField_val w 4 _, extractBits_toNat w 10 _ _, regField_val w 38 _⟩
  · exact ⟨decodeWord_mem_noOpInstrs h14 h5 h3 h10, opcode_decodeWord w⟩

/-! ## Unused bits and the canonical word (O5, O7) -/

/-- Words that agree on four low bits or more have the same opcode. -/
theorem opcode_eq_of_low_bits_eq {w w' : InstrWord} {n : Nat} (hn : 4 ≤ n) (h : w.toNat % 2 ^ n = w'.toNat % 2 ^ n) :
    w.toNat % 16 = w'.toNat % 16 :=
  Nat.ModEq.of_dvd (pow_dvd_pow 2 hn) h

/-- Every layout uses field A. -/
theorem four_le_usedBits (a : Nat) : 4 ≤ usedBits a := by
  unfold usedBits
  split_ifs <;> decide

/-- Outside the four layouts only field A is used (R59). -/
theorem usedBits_eq_four {a : Nat} (h14 : a ≠ 14) (h5 : a ≠ 5) (h3 : a ≠ 3) (h10 : a ≠ 10) : usedBits a = 4 := by
  rw [usedBits, if_neg h14, if_neg h5, if_neg h3, if_neg h10]

/-- A no-op slot is known by its opcode. -/
theorem eq_of_mem_noOpInstrs : ∀ i ∈ Machine.noOpInstrs, ∀ j ∈ Machine.noOpInstrs, i.opcode = j.opcode → i = j := by
  decide

theorem decodeLoadConst_eq_iff (w w' : InstrWord) :
    decodeLoadConst w = decodeLoadConst w' ↔
      w.toNat / 2 ^ 4 % 64 = w'.toNat / 2 ^ 4 % 64 ∧ w.toNat / 2 ^ 10 % 2 ^ 21 = w'.toNat / 2 ^ 10 % 2 ^ 21 := by
  simp only [decodeLoadConst, Instr.loadConst.injEq, Fin.ext_iff, regField_val, ← BitVec.toNat_inj, extractBits_toNat]

theorem decodeReadValue_eq_iff (w w' : InstrWord) :
    decodeReadValue w = decodeReadValue w' ↔
      w.toNat / 2 ^ 4 % 64 = w'.toNat / 2 ^ 4 % 64 ∧ w.toNat / 2 ^ 10 % 64 = w'.toNat / 2 ^ 10 % 64 ∧
        w.toNat / 2 ^ 16 % 2 ^ 6 = w'.toNat / 2 ^ 16 % 2 ^ 6 := by
  simp only [decodeReadValue, Instr.readValue.injEq, Fin.ext_iff, regField_val, ← BitVec.toNat_inj, extractBits_toNat]

theorem decodeWriteValue_eq_iff (w w' : InstrWord) :
    decodeWriteValue w = decodeWriteValue w' ↔
      w.toNat / 2 ^ 4 % 64 = w'.toNat / 2 ^ 4 % 64 ∧ w.toNat / 2 ^ 10 % 64 = w'.toNat / 2 ^ 10 % 64 ∧
        w.toNat / 2 ^ 16 % 2 ^ 6 = w'.toNat / 2 ^ 16 % 2 ^ 6 := by
  simp only [decodeWriteValue, Instr.writeValue.injEq, Fin.ext_iff, regField_val, ← BitVec.toNat_inj, extractBits_toNat]

theorem decodeGreaterOrEqual_eq_iff (w w' : InstrWord) :
    decodeGreaterOrEqual w = decodeGreaterOrEqual w' ↔
      w.toNat / 2 ^ 4 % 64 = w'.toNat / 2 ^ 4 % 64 ∧ w.toNat / 2 ^ 10 % 2 ^ 28 = w'.toNat / 2 ^ 10 % 2 ^ 28 ∧
        w.toNat / 2 ^ 38 % 64 = w'.toNat / 2 ^ 38 % 64 := by
  simp only [decodeGreaterOrEqual, Instr.greaterOrEqual.injEq, Fin.ext_iff, regField_val, ← BitVec.toNat_inj,
    extractBits_toNat]

/-- Words of one opcode decode alike exactly when they agree on the bits their layout uses: the layout's fields follow one
another with no gap, from bit 0 to its last used bit. -/
theorem decodeWord_eq_iff {w w' : InstrWord} (hop : w.toNat % 16 = w'.toNat % 16) :
    decodeWord w = decodeWord w' ↔
      w.toNat % 2 ^ usedBits (w.toNat % 16) = w'.toNat % 2 ^ usedBits (w.toNat % 16) := by
  by_cases h14 : w.toNat % 16 = 14
  · rw [decodeWord_loadConst h14, decodeWord_loadConst (hop.symm.trans h14), decodeLoadConst_eq_iff, h14,
      show usedBits 14 = 31 from rfl]
    omega
  by_cases h5 : w.toNat % 16 = 5
  · rw [decodeWord_readValue h5, decodeWord_readValue (hop.symm.trans h5), decodeReadValue_eq_iff, h5,
      show usedBits 5 = 22 from rfl]
    omega
  by_cases h3 : w.toNat % 16 = 3
  · rw [decodeWord_writeValue h3, decodeWord_writeValue (hop.symm.trans h3), decodeWriteValue_eq_iff, h3,
      show usedBits 3 = 22 from rfl]
    omega
  by_cases h10 : w.toNat % 16 = 10
  · rw [decodeWord_greaterOrEqual h10, decodeWord_greaterOrEqual (hop.symm.trans h10), decodeGreaterOrEqual_eq_iff, h10,
      show usedBits 10 = 44 from rfl]
    omega
  have hw := decodeWord_mem_noOpInstrs h14 h5 h3 h10
  have hw' : decodeWord w' ∈ Machine.noOpInstrs := by
    rw [hop] at h14 h5 h3 h10
    exact decodeWord_mem_noOpInstrs h14 h5 h3 h10
  have heq : decodeWord w = decodeWord w' :=
    eq_of_mem_noOpInstrs _ hw _ hw' (by rw [opcode_decodeWord, opcode_decodeWord, hop])
  rw [usedBits_eq_four h14 h5 h3 h10]
  exact iff_of_true heq hop

/-- Settles O5: words that agree on the used bits have the same opcode, and so the same layout. -/
theorem unusedBitsAreIgnored : Obligations.UnusedBitsAreIgnored := by
  unfold Obligations.UnusedBitsAreIgnored
  intro w w' h
  exact (decodeWord_eq_iff (opcode_eq_of_low_bits_eq (four_le_usedBits _) h)).2 h

theorem canonicalWord_iff (w : InstrWord) : canonicalWord w = true ↔ w.toNat < 2 ^ usedBits (w.toNat % 16) :=
  decide_eq_true_iff

/-- Every encoded word is canonical (R59, R66). -/
theorem canonicalWord_encodeWord (i : Instr) : canonicalWord (encodeWord i) = true := by
  cases i with
  | loadConst rd const => exact Laws.CanonicalEncoding.loadConst rd const
  | readValue rbase rd off => exact Laws.CanonicalEncoding.readValue rbase rd off
  | writeValue rdata rbase off => exact Laws.CanonicalEncoding.writeValue rdata rbase off
  | greaterOrEqual raddr memaddr rleft => exact Laws.CanonicalEncoding.greaterOrEqual raddr memaddr rleft
  | unrecognized0 => exact Laws.CanonicalEncoding.unrecognized0
  | unrecognized1 => exact Laws.CanonicalEncoding.unrecognized1
  | unrecognized2 => exact Laws.CanonicalEncoding.unrecognized2
  | unrecognized4 => exact Laws.CanonicalEncoding.unrecognized4
  | unrecognized6 => exact Laws.CanonicalEncoding.unrecognized6
  | unrecognized7 => exact Laws.CanonicalEncoding.unrecognized7
  | unrecognized8 => exact Laws.CanonicalEncoding.unrecognized8
  | unrecognized9 => exact Laws.CanonicalEncoding.unrecognized9
  | unrecognized11 => exact Laws.CanonicalEncoding.unrecognized11
  | unrecognized12 => exact Laws.CanonicalEncoding.unrecognized12
  | unrecognized13 => exact Laws.CanonicalEncoding.unrecognized13
  | unrecognized15 => exact Laws.CanonicalEncoding.unrecognized15

/-- Canonical words that decode alike are equal: they have no bits but the used ones. -/
theorem eq_of_decodeWord_eq {w w' : InstrWord} (hw : canonicalWord w = true) (hw' : canonicalWord w' = true)
    (h : decodeWord w = decodeWord w') : w = w' := by
  have hop : w.toNat % 16 = w'.toNat % 16 := by rw [← opcode_decodeWord, ← opcode_decodeWord, h]
  have hlow := (decodeWord_eq_iff hop).1 h
  rw [canonicalWord_iff] at hw hw'
  rw [← hop] at hw'
  rw [Nat.mod_eq_of_lt hw, Nat.mod_eq_of_lt hw'] at hlow
  exact BitVec.eq_of_toNat_eq hlow

/-- Encoding what a word decodes to gives the word back exactly when the word is canonical (R59). -/
theorem encodeWord_decodeWord_eq_iff (w : InstrWord) : encodeWord (decodeWord w) = w ↔ canonicalWord w = true := by
  constructor
  · intro h
    rw [← h]
    exact canonicalWord_encodeWord (decodeWord w)
  · intro h
    exact eq_of_decodeWord_eq (canonicalWord_encodeWord _) h (decodeWord_encodeWord _)

/-- Settles O7: both words are canonical and decode alike. -/
theorem encodeOfDecodeIsTheCanonicalWord : Obligations.EncodeOfDecodeIsTheCanonicalWord :=
  encodeWord_decodeWord_eq_iff

/-! ## The assembled words (O39) -/

/-- In a word with nothing from bit `start` up, packing a natural value ors its cut, shifted, onto the word (R63). -/
theorem setBits_ofNat {n start len : Nat} (v : Nat) (h : start + len ≤ 64) (hn : n < 2 ^ start) :
    setBits (BitVec.ofNat 64 n) start len v h = BitVec.ofNat 64 (n ||| (v % 2 ^ len) <<< start) := by
  apply BitVec.eq_of_getLsbD_eq
  intro i hi
  have hhigh (hs : start ≤ i) : n.testBit i = false :=
    Nat.testBit_lt_two_pow (Nat.lt_of_lt_of_le hn (Nat.pow_le_pow_right (by decide) hs))
  rw [setBits_getLsbD _ _ _ _ _ hi, BitVec.ofInt_natCast]
  simp only [BitVec.getLsbD_ofNat, Nat.testBit_or, Nat.testBit_shiftLeft, Nat.testBit_mod_two_pow, hi, decide_true,
    Bool.true_and]
  by_cases hs : start ≤ i
  · by_cases hl : i < start + len
    · have h64 : i - start < 64 := by omega
      have hlen : i - start < len := by omega
      simp [hs, hl, h64, hlen, hhigh hs]
    · have hlen : ¬ i - start < len := by omega
      simp [hl, hlen]
  · simp [hs]

/-- The packed word has nothing above the field. -/
theorem or_mod_shiftLeft_lt {n start : Nat} (len v : Nat) (hn : n < 2 ^ start) :
    n ||| (v % 2 ^ len) <<< start < 2 ^ (start + len) := by
  refine Nat.or_lt_two_pow (Nat.lt_of_lt_of_le hn (Nat.pow_le_pow_right (by decide) (Nat.le_add_right _ _))) ?_
  rw [Nat.shiftLeft_eq, Nat.pow_add, Nat.mul_comm]
  exact Nat.mul_lt_mul_of_pos_left (Nat.mod_lt _ (Nat.two_pow_pos len)) (Nat.two_pow_pos start)

/-- Field A in a word of 0. -/
theorem setBits_opcode {a : Nat} (ha : a < 2 ^ 4) : setBits 0#64 0 4 a (by decide) = BitVec.ofNat 64 a := by
  rw [setBits_ofNat a _ (Nat.two_pow_pos 0), Nat.mod_eq_of_lt ha, Nat.shiftLeft_zero, Nat.zero_or]

/-- Field B after field A (R55 to R58). -/
theorem setBits_opcode_fieldB {a : Nat} (ha : a < 2 ^ 4) (b : Nat) :
    setBits (setBits 0#64 0 4 a (by decide)) 4 6 b (by decide) = BitVec.ofNat 64 (a ||| (b % 2 ^ 6) <<< 4) := by
  rw [setBits_opcode ha, setBits_ofNat b _ ha]

/-- A third field of any length from bit 10 on: the shape of load-const (R55). -/
theorem setBits_fieldC {a : Nat} (ha : a < 2 ^ 4) (b c : Nat) {len : Nat} (h : 10 + len ≤ 64) :
    setBits (setBits (setBits 0#64 0 4 a (by decide)) 4 6 b (by decide)) 10 len c h =
      BitVec.ofNat 64 (a ||| (b % 2 ^ 6) <<< 4 ||| (c % 2 ^ len) <<< 10) := by
  rw [setBits_opcode_fieldB ha b, setBits_ofNat c h (or_mod_shiftLeft_lt 6 b ha)]

/-- A fourth field of six bits after that: the shape of the other three layouts (R56 to R58). -/
theorem setBits_fieldD {a : Nat} (ha : a < 2 ^ 4) (b c d : Nat) {len : Nat} (h : 10 + len ≤ 64)
    (h' : 10 + len + 6 ≤ 64) :
    setBits (setBits (setBits (setBits 0#64 0 4 a (by decide)) 4 6 b (by decide)) 10 len c h) (10 + len) 6 d h' =
      BitVec.ofNat 64 (a ||| (b % 2 ^ 6) <<< 4 ||| (c % 2 ^ len) <<< 10 ||| (d % 2 ^ 6) <<< (10 + len)) := by
  rw [setBits_fieldC ha b c h,
    setBits_ofNat d h' (or_mod_shiftLeft_lt len c (or_mod_shiftLeft_lt 6 b ha))]

theorem packLoadConst_natCast (b c : Nat) :
    packLoadConst b c = BitVec.ofNat 64 (14 ||| (b % 64) <<< 4 ||| (c % 2 ^ 21) <<< 10) :=
  setBits_fieldC (a := 14) (by decide) b c (by decide)

theorem packReadValue_natCast (b c d : Nat) :
    packReadValue b c d = BitVec.ofNat 64 (5 ||| (b % 64) <<< 4 ||| (c % 64) <<< 10 ||| (d % 64) <<< 16) :=
  setBits_fieldD (a := 5) (len := 6) (by decide) b c d (by decide) (by decide)

theorem packWriteValue_natCast (b c d : Nat) :
    packWriteValue b c d = BitVec.ofNat 64 (3 ||| (b % 64) <<< 4 ||| (c % 64) <<< 10 ||| (d % 64) <<< 16) :=
  setBits_fieldD (a := 3) (len := 6) (by decide) b c d (by decide) (by decide)

theorem packGreaterOrEqual_natCast (b c d : Nat) :
    packGreaterOrEqual b c d =
      BitVec.ofNat 64 (10 ||| (b % 64) <<< 4 ||| (c % 2 ^ 28) <<< 10 ||| (d % 64) <<< 38) :=
  setBits_fieldD (a := 10) (len := 28) (by decide) b c d (by decide) (by decide)

end Sys2Proof

namespace Sys2Proof.Machine

/-! ## The assembler over a sequence of tuples (O39, O40) -/

/-- What one tuple adds to an assembly: a word's bytes, or a diagnostic (R67). -/
def tupleOutput (t : AsmTuple) : Option InstrWord → AsmOutput
  | some w => ⟨bytesOfWord w, []⟩
  | none => ⟨[], [t.name]⟩

/-- One output after another. -/
def AsmOutput.append (out out' : AsmOutput) : AsmOutput :=
  ⟨out.bytes ++ out'.bytes, out.diagnostics ++ out'.diagnostics⟩

theorem AsmOutput.append_assoc (a b c : AsmOutput) : (a.append b).append c = a.append (b.append c) := by
  simp only [AsmOutput.append, List.append_assoc]

/-- The first tuple's output comes before that of the others, and each can fail the whole. -/
theorem assemble_cons (t : AsmTuple) (ts : List AsmTuple) :
    assemble (t :: ts) = do
      let w ← encodeTuple t
      let out ← assemble ts
      return (tupleOutput t w).append out := by
  rw [assemble]
  cases encodeTuple t with
  | error e => rfl
  | ok w =>
    cases assemble ts with
    | error e => rfl
    | ok out => cases w <;> rfl

theorem assemble_singleton {t : AsmTuple} {w : Option InstrWord} (h : encodeTuple t = .ok w) :
    assemble [t] = .ok (tupleOutput t w) := by
  rw [assemble_cons, h]
  cases w <;> rfl

/-- Assembling a concatenation is assembling its parts in order (R66). -/
theorem assemble_append (ts us : List AsmTuple) :
    assemble (ts ++ us) = do
      let out ← assemble ts
      let out' ← assemble us
      return out.append out' := by
  induction ts with
  | nil =>
    rw [List.nil_append, assemble]
    cases assemble us <;> rfl
  | cons t ts ih =>
    rw [List.cons_append, assemble_cons, assemble_cons, ih]
    cases encodeTuple t with
    | error e => rfl
    | ok w =>
      cases assemble ts with
      | error e => rfl
      | ok out =>
        cases assemble us with
        | error e => rfl
        | ok out' => exact congrArg Except.ok (AsmOutput.append_assoc (tupleOutput t w) out out').symm

theorem encodeTuple_loadConst (b c : Int) : encodeTuple ⟨nameLoadConst, [b, c]⟩ = .ok (some (packLoadConst b c)) := rfl

theorem encodeTuple_readValue (b c d : Int) :
    encodeTuple ⟨nameReadValue, [b, c, d]⟩ = .ok (some (packReadValue b c d)) := rfl

theorem encodeTuple_writeValue (b c d : Int) :
    encodeTuple ⟨nameWriteValue, [b, c, d]⟩ = .ok (some (packWriteValue b c d)) := rfl

theorem encodeTuple_greaterOrEqual (b c d : Int) :
    encodeTuple ⟨nameGreaterOrEqual, [b, c, d]⟩ = .ok (some (packGreaterOrEqual b c d)) := rfl

/-- An unknown name gives no word, whatever its operands (R67). -/
theorem encodeTuple_unknown {t : AsmTuple}
    (h : t.name ∉ [nameLoadConst, nameReadValue, nameWriteValue, nameGreaterOrEqual]) : encodeTuple t = .ok none := by
  simp only [List.mem_cons, List.not_mem_nil, or_false, not_or] at h
  obtain ⟨hload, hread, hwrite, hge⟩ := h
  rw [encodeTuple, if_neg hload, if_neg hread, if_neg hwrite, if_neg hge]

/-- Settles O39: each operation assembles to its packed word, and that word is the formula. -/
theorem assembledWordsFollowTheFormulas : Obligations.AssembledWordsFollowTheFormulas := by
  unfold Obligations.AssembledWordsFollowTheFormulas
  refine ⟨fun b c => ?_, fun b c d => ?_, fun b c d => ?_, fun b c d => ?_⟩
  · rw [assemble_singleton (encodeTuple_loadConst b c), packLoadConst_natCast, tupleOutput]
  · rw [assemble_singleton (encodeTuple_readValue b c d), packReadValue_natCast, tupleOutput]
  · rw [assemble_singleton (encodeTuple_writeValue b c d), packWriteValue_natCast, tupleOutput]
  · rw [assemble_singleton (encodeTuple_greaterOrEqual b c d), packGreaterOrEqual_natCast, tupleOutput]

/-- Settles O40: by the equation of a concatenation, and that of a single tuple. -/
theorem assemblyConcatenates : Obligations.AssemblyConcatenates := by
  unfold Obligations.AssemblyConcatenates
  refine ⟨fun ts us out out' hts hus => ?_, fun ts us e h => ?_, fun t ht => ?_⟩
  · rw [assemble_append, hts, hus]
    rfl
  · rw [assemble_append]
    rcases h with hts | hus
    · rw [hts]
      exact ⟨e, rfl⟩
    · rw [hus]
      cases assemble ts with
      | error e' => exact ⟨e', rfl⟩
      | ok out => exact ⟨e, rfl⟩
  · rw [assemble_singleton (encodeTuple_unknown ht), tupleOutput]

/-! ## The text parser (O41) -/

/-- Settles O41: the parser maps over the lines, and one that fails fails the map. -/
theorem malformedLineFailsTheAssembly : Obligations.MalformedLineFailsTheAssembly := by
  unfold Obligations.MalformedLineFailsTheAssembly
  intro text line e hline herr
  obtain ⟨e', hmap⟩ := mapM_error hline herr
  have hparse : parseProgram text = .error e' := by
    rw [parseProgram, hmap]
    rfl
  exact ⟨e', by rw [assembleText, hparse]⟩

/-! ## Assembling a disassembled word (O43) -/

/-- A printed line: the name, then each operand behind a separator. -/
theorem printLine_eq (name : Text) (operands : List Nat) :
    printLine name operands = name ++ operands.flatMap fun v => ';' :: printNat v := by
  rw [printLine, List.foldl_append_eq_append, List.flatMap_def]

/-- A character of a printed line is one of the name, a separator, or one of a printed number. -/
theorem of_mem_printLine {name : Text} {operands : List Nat} {c : Char} (h : c ∈ printLine name operands) :
    c ∈ name ∨ c = ';' ∨ ∃ v, c ∈ printNat v := by
  rw [printLine_eq, List.mem_append, List.mem_flatMap] at h
  rcases h with hname | ⟨v, -, hv⟩
  · exact .inl hname
  · rcases List.mem_cons.1 hv with hsep | hnum
    · exact .inr (.inl hsep)
    · exact .inr (.inr ⟨v, hnum⟩)

theorem parseOperand_printNat (n : Nat) : parseOperand (printNat n) = .ok (n : Int) := by
  rw [parseOperand, parseInt_printNat]

/-- Printed operands parse back to themselves. -/
theorem mapM_parseOperand_printNat (operands : List Nat) :
    (operands.map printNat).mapM parseOperand = .ok (operands.map Nat.cast) := by
  induction operands with
  | nil => rfl
  | cons v vs ih =>
    rw [List.map_cons, List.mapM_cons, parseOperand_printNat, ih]
    rfl

section PrintedLine

variable {name : Text} (hname : name ∈ [nameLoadConst, nameReadValue, nameWriteValue, nameGreaterOrEqual])
include hname

/-- A printed line of a known operation is one line, and holds no white space. -/
theorem printLine_plain {operands : List Nat} {c : Char} (h : c ∈ printLine name operands) :
    c ≠ '\n' ∧ isBlank c = false := by
  rcases of_mem_printLine h with hc | rfl | ⟨v, hv⟩
  · obtain ⟨-, hnl, hblank⟩ := (opName_plain hname).2 c hc
    exact ⟨hnl, hblank⟩
  · decide
  · obtain ⟨-, hnl, -, hblank⟩ := printNat_plain hv
    exact ⟨hnl, hblank⟩

/-- A printed line splits into its name and its printed operands. -/
theorem splitText_printLine (operands : List Nat) :
    splitText ';' (printLine name operands) = name :: operands.map printNat := by
  have hsep : ';' ∉ name := fun h => ((opName_plain hname).2 _ h).1 rfl
  rw [printLine_eq]
  clear hname
  induction operands generalizing name with
  | nil => rw [List.flatMap_nil, List.append_nil, splitText_of_not_mem hsep, List.map_nil]
  | cons v vs ih =>
    have hv : ';' ∉ printNat v := fun h => (printNat_plain h).1 rfl
    rw [List.flatMap_cons, List.cons_append, splitText_append hsep, ih hv, List.map_cons]

/-- A printed line parses back to its name and its operands (R69). -/
theorem parseLine_printLine (operands : List Nat) :
    parseLine (printLine name operands) = .ok (some ⟨name, operands.map Nat.cast⟩) := by
  have htrim : trimText (printLine name operands) = printLine name operands :=
    trimText_of_no_blank fun c hc => (printLine_plain hname hc).2
  have hne : printLine name operands ≠ [] := by
    rw [printLine_eq]
    exact List.append_ne_nil_of_left_ne_nil (opName_plain hname).1 _
  have hplain : ∀ t ∈ name :: operands.map printNat, trimText t = t := by
    refine fun t ht => trimText_of_no_blank fun c hc => ?_
    rcases List.mem_cons.1 ht with rfl | ht
    · exact ((opName_plain hname).2 c hc).2.2
    · obtain ⟨v, -, rfl⟩ := List.mem_map.1 ht
      exact (printNat_plain hc).2.2.2
  have htokens : (name :: operands.map printNat).map trimText = name :: operands.map printNat :=
    (List.map_congr_left hplain).trans (List.map_id' _)
  rw [parseLine, htrim, if_neg hne, splitText_printLine hname, htokens]
  simp only [mapM_parseOperand_printNat]
  rfl

/-- A printed line assembles to the word of the tuple it was printed from. -/
theorem assembleText_printLine {operands : List Nat} {w : InstrWord}
    (h : encodeTuple ⟨name, operands.map Nat.cast⟩ = .ok (some w)) :
    assembleText (printLine name operands) = .ok ⟨bytesOfWord w, []⟩ := by
  have hline : '\n' ∉ printLine name operands := fun hmem => (printLine_plain hname hmem).1 rfl
  have hparse : parseProgram (printLine name operands) = .ok [⟨name, operands.map Nat.cast⟩] := by
    rw [parseProgram, splitText_of_not_mem hline, List.mapM_cons, parseLine_printLine hname]
    rfl
  rw [assembleText, hparse]
  exact assemble_singleton h

end PrintedLine

/-- The words without a spelling are those of the unrecognized opcodes (R69). -/
theorem disassemble_eq_none_iff (w : InstrWord) : disassemble w = none ↔ decodeWord w ∈ noOpInstrs := by
  unfold disassemble
  cases decodeWord w <;> simp [noOpInstrs]

/-- A spelling assembles to the canonical word of the instruction it spells. -/
theorem assembleText_of_disassemble {w : InstrWord} {text : Text} (h : disassemble w = some text) :
    assembleText text = .ok ⟨bytesOfWord (encodeWord (decodeWord w)), []⟩ := by
  unfold disassemble at h
  generalize decodeWord w = i at h ⊢
  cases i with
  | loadConst rd const =>
    cases h
    exact assembleText_printLine (by decide) (encodeTuple_loadConst _ _)
  | readValue rbase rd off =>
    cases h
    exact assembleText_printLine (by decide) (encodeTuple_readValue _ _ _)
  | writeValue rdata rbase off =>
    cases h
    exact assembleText_printLine (by decide) (encodeTuple_writeValue _ _ _)
  | greaterOrEqual raddr memaddr rleft =>
    cases h
    exact assembleText_printLine (by decide) (encodeTuple_greaterOrEqual _ _ _)
  | _ => cases h

/-- A word is known by its bytes. -/
theorem bytesOfWord_injective : Function.Injective bytesOfWord :=
  Function.LeftInverse.injective wordOfBytes_bytesOfWord

/-- Settles O43: a spelling assembles to what the decoded word encodes to, which is the word exactly when that is
canonical. -/
theorem assemblyOfDisassemblyIsTheCanonicalWord : Obligations.AssemblyOfDisassemblyIsTheCanonicalWord := by
  unfold Obligations.AssemblyOfDisassemblyIsTheCanonicalWord
  intro w
  refine ⟨disassemble_eq_none_iff w, fun text h => ?_⟩
  rw [assembleText_of_disassemble h, ← encodeWord_decodeWord_eq_iff, ← bytesOfWord_injective.eq_iff]
  simp only [Except.ok.injEq, AsmOutput.mk.injEq, and_true]

/-! ## The source's vectors (O8) -/

/-- Settles O8: each vector is decoded by evaluation. -/
theorem specVectorsDecode : Obligations.SpecVectorsDecode := by
  unfold Obligations.SpecVectorsDecode
  exact ⟨rfl, rfl, rfl, rfl, rfl, rfl⟩

end Sys2Proof.Machine

/-! # Proofs: the statements of the load-const chapter (`40_load_const.md`) -/

namespace Sys2Proof.Machine

/-! ## One step's values (O44) -/

/-- Every step answers a next state, that of a halted machine too (R111; log entry 3). -/
theorem step_next (s : State) : ∃ t, step s = .next t := by
  cases hs : halted s with
  | true => exact ⟨s, step_of_halted hs⟩
  | false =>
    rw [step_of_running hs]
    exact exec_next _ s

/-- Settles O44: the step answers a next state, and no effect makes a value outside the set. -/
theorem stepAddsNoValueButTheConstant : Obligations.StepAddsNoValueButTheConstant := by
  unfold Obligations.StepAddsNoValueButTheConstant
  intro S s h0 h1 hconst hregs hcells
  obtain ⟨t, hstep⟩ := step_next s
  have ht : t.ValuesIn S := State.ValuesIn.step ⟨hregs, hcells⟩ h0 h1 hconst hstep
  exact ⟨t, hstep, ht.regs, ht.cells⟩

/-! ## A run's values (O38) -/

/-- The values that a run of `k` words can have made: 0, 1 and the constants of the load-consts among these (R81). -/
def RunValue (stream : List Byte) (k : Nat) (v : Word) : Prop :=
  v = 0 ∨ v = 1 ∨ LoadedBefore stream k v

/-- One word more takes no value away. -/
theorem RunValue.succ {stream : List Byte} {k : Nat} {v : Word} (h : RunValue stream k v) :
    RunValue stream (k + 1) v := by
  obtain h0 | h1 | ⟨j, rd, const, hj, hword⟩ := h
  · exact .inl h0
  · exact .inr (.inl h1)
  · exact .inr (.inr ⟨j, rd, const, Nat.lt_succ_of_lt hj, hword⟩)

theorem State.ValuesIn.mono {S T : Word → Prop} {s : State} (h : s.ValuesIn S) (hST : ∀ v, S v → T v) :
    s.ValuesIn T :=
  ⟨fun r => hST _ (h.regs r), fun a => hST _ (h.cells a)⟩

/-- The last step of a run taken apart from those before it. -/
theorem run_succ_last {k : Nat} {s t : State} (h : run (k + 1) s = .next t) :
    ∃ u, run k s = .next u ∧ step u = .next t := by
  induction k generalizing s with
  | zero =>
    obtain ⟨u, hstep⟩ := step_next s
    rw [run_succ_of_step hstep, run_zero] at h
    exact ⟨s, rfl, hstep.trans h⟩
  | succ k ih =>
    obtain ⟨s', hstep⟩ := step_next s
    rw [run_succ_of_step hstep] at h
    obtain ⟨u, hrun, hlast⟩ := ih h
    exact ⟨u, (run_succ_of_step hstep).trans hrun, hlast⟩

/-- If the word that a run of `k` steps has come to is a load-const, its constant is among those of the first `k + 1`
words: that word is the `k`-th of the stream (O31). -/
theorem loadedBefore_of_fetched {stream : List Byte} {k : Nat} {u : State} (hrun : run k (State.load stream) = .next u)
    (hword : u.ip + 8 ≤ u.stream.length) {rd : RegIdx} {const : BitVec Config.constBits}
    (hdecode : decodeWord (fetchWord u) = .loadConst rd const) : LoadedBefore stream (k + 1) (constValue const) := by
  have hrunning : halted u = false := (halted_eq_false_iff u).2 hword
  obtain ⟨hstream, hfetch⟩ := fetchSeesTheStreamTheRunBeganWith stream k u hrun
  have hip : u.ip = 8 * k := by
    rw [run_ip_of_running hrun hrunning, load_ip, Nat.zero_add]
  rw [hip, hstream] at hword
  rw [hfetch hrunning] at hdecode
  exact ⟨k, rd, const, Nat.lt_succ_self k, hword, hdecode, rfl⟩

/-- The invariant of O38, by induction on the number of steps: the last step adds at most the constant of the word it
runs. -/
theorem run_valuesIn {stream : List Byte} {k : Nat} {t : State} (hrun : run k (State.load stream) = .next t) :
    t.ValuesIn (RunValue stream k) := by
  induction k generalizing t with
  | zero =>
    cases hrun
    exact ⟨fun r => .inl (readReg_load stream r), fun a => .inl (memRead_load stream a)⟩
  | succ k ih =>
    obtain ⟨u, hrun', hstep⟩ := run_succ_last hrun
    have hu : u.ValuesIn (RunValue stream (k + 1)) := (ih hrun').mono fun _ => RunValue.succ
    exact hu.step (.inl rfl) (.inr (.inl rfl))
      (fun _ _ hword hdecode => .inr (.inr (loadedBefore_of_fetched hrun' hword hdecode))) hstep

/-- Settles O38: after `k` steps every register and every cell holds a value of the invariant's set. -/
theorem valuesComeFromExecutedConstants : Obligations.ValuesComeFromExecutedConstants :=
  fun _ _ _ hrun => ⟨(run_valuesIn hrun).regs, (run_valuesIn hrun).cells⟩

/-! ## The instruction (O11) -/

/-- Settles O11: the layout is O4's first clause, and the result and the frame are those of a register write. -/
theorem loadConstWritesItsConstantField : Obligations.LoadConstWritesItsConstantField := by
  unfold Obligations.LoadConstWritesItsConstantField
  refine ⟨fun w => (decodeFollowsTheLayouts w).1, fun rd const s => ?_⟩
  refine ⟨_, exec_loadConst rd const s, ?_, ?_, ?_, ?_⟩
  · rw [readReg_advance, readReg_writeReg_same, constValue_toNat]
  · exact fun r hr => readReg_writeReg_other s _ hr
  · exact fun a => by rw [memRead_advance, memRead_writeReg]
  · exact ⟨rfl, rfl⟩

end Sys2Proof.Machine

/-! # Proofs: the statements of the load-store chapter (`41_load_store.md`) -/

namespace Sys2Proof.Machine

/-! ## The guarded accesses in bounds -/

/-- In bounds a guarded load gives its destination the cell's value. -/
theorem readReg_loadCell_in (s : State) {a : Nat} (h : a < 65536) (rd : RegIdx) :
    readReg (loadCell s a rd) rd = memRead s a := by
  rw [loadCell_in h, readReg_writeReg_same]

/-- In bounds a guarded store gives the addressed cell the value stored. -/
theorem memRead_storeCell_in (s : State) {a : Nat} (h : a < 65536) (v : Word) : memRead (storeCell s a v) a = v := by
  rw [memRead_storeCell, if_pos ⟨rfl, h⟩]

/-! ## The instructions (O12, O13) -/

/-- Settles O12: the layout is O4's second clause, and the result and the frame are those of a guarded load. -/
theorem readValueLoadsTheCellInBounds : Obligations.ReadValueLoadsTheCellInBounds := by
  unfold Obligations.ReadValueLoadsTheCellInBounds
  refine ⟨fun w => (decodeFollowsTheLayouts w).2.1, fun rbase rd off s => ?_⟩
  refine ⟨_, exec_readValue rbase rd off s, fun hin => ?_, fun hout => ?_, fun r hr => ?_, fun a => ?_, ?_, ?_⟩
  · exact readReg_loadCell_in s hin rd
  · have hout : 65536 ≤ baseOffsetAddr s rbase off := hout
    rw [loadCell_out hout, readReg_advance]
  · exact readReg_loadCell_other s _ hr
  · rw [memRead_advance, memRead_loadCell]
  · rw [advance_ip, loadCell_ip]
  · rw [advance_stream, loadCell_stream]

/-- Settles O13: the layout is O4's third clause, and the cell stored to and the frame are those of a guarded store. -/
theorem writeValueStoresTheRegisterInBounds : Obligations.WriteValueStoresTheRegisterInBounds := by
  unfold Obligations.WriteValueStoresTheRegisterInBounds
  refine ⟨fun w => (decodeFollowsTheLayouts w).2.2.1, fun rdata rbase off s => ?_⟩
  refine ⟨_, exec_writeValue rdata rbase off s, ?_, fun r => ?_, ?_, ?_⟩
  · rintro _ rfl
    refine ⟨fun hin => ?_, fun hout => ?_, fun b hb => ?_⟩
    · exact memRead_storeCell_in s hin _
    · exact memRead_storeCell_other s _ (.inr hout)
    · exact memRead_storeCell_other s _ (.inl hb)
  · rw [readReg_advance, readReg_storeCell]
  · rw [advance_ip, storeCell_ip]
  · rw [advance_stream, storeCell_stream]

/-! ## A load after a store (O18) -/

/-- Settles O18: in bounds the cell holds what the store left, and the load gives the cell; out of bounds the store is the
identity. -/
theorem storeThenLoadReturnsTheValue : Obligations.StoreThenLoadReturnsTheValue := by
  unfold Obligations.StoreThenLoadReturnsTheValue
  intro rdata rbase off s t hstore
  cases hstore
  refine ⟨fun hin rbase' rd off' u haddr hcell => ?_, fun hout a => ?_⟩
  · have hin' : baseOffsetAddr u rbase' off' < 65536 := haddr.trans_lt hin
    refine ⟨_, exec_readValue rbase' rd off' u, ?_⟩
    calc readReg (advance (loadCell u (baseOffsetAddr u rbase' off') rd)) rd
        = memRead u (baseOffsetAddr u rbase' off') := readReg_loadCell_in u hin' rd
      _ = memRead u (baseOffsetAddr s rbase off) := congrArg (memRead u) haddr
      _ = memRead (storeCell s (baseOffsetAddr s rbase off) (readReg s rdata)) (baseOffsetAddr s rbase off) := hcell
      _ = readReg s rdata := memRead_storeCell_in s hin _
  · have hout : 65536 ≤ baseOffsetAddr s rbase off := hout
    rw [storeCell_out hout, memRead_advance]

end Sys2Proof.Machine

/-! # Proofs: the statements of the comparison chapter (`42_compare.md`) -/

namespace Sys2Proof.Machine

/-! ## The effect of greater-or-equal, in and out of bounds -/

/-- The comparison's value read as a natural number: R95's `(a >= b) ? 1 : 0`. -/
theorem compareResult_toNat (a b : Word) : (compareResult a b).toNat = if b.toNat ≤ a.toNat then 1 else 0 := by
  split
  · next h => rw [compareResult_ge h]; rfl
  · next h => rw [compareResult_lt (Nat.lt_of_not_le h)]; rfl

theorem compareResult_eq_zero_or_one (a b : Word) : compareResult a b = 0 ∨ compareResult a b = 1 :=
  compareResult_of_zero_one (S := fun v => v = 0 ∨ v = 1) (.inl rfl) (.inr rfl) a b

/-- With both addresses in bounds the destination cell gets the comparison of what register and cell held before. -/
theorem memRead_storeComparison_in (s : State) {raddr : RegIdx} {memaddr : BitVec Config.memAddrBits} (rleft : RegIdx)
    (hsource : literalAddr memaddr < 65536) (hdest : registerAddr s raddr < 65536) :
    memRead (storeComparison s raddr memaddr rleft) (registerAddr s raddr) =
      compareResult (readReg s rleft) (memRead s (literalAddr memaddr)) := by
  rw [memRead_storeComparison, if_pos ⟨rfl, hdest, hsource⟩]

/-- With either address out of bounds the effect is the identity: the literal address guards the whole of it (D5), the
destination address the store. -/
theorem storeComparison_out {s : State} {raddr : RegIdx} {memaddr : BitVec Config.memAddrBits} (rleft : RegIdx)
    (h : 65536 ≤ literalAddr memaddr ∨ 65536 ≤ registerAddr s raddr) : storeComparison s raddr memaddr rleft = s := by
  rw [storeComparison_eq]
  split
  · next hsource => exact storeCell_out (h.resolve_left (Nat.not_le.2 hsource)) _
  · rfl

/-! ## The instruction (O14, O15) -/

/-- Settles O14: the layout is O4's fourth clause, and the cell written and the frame are those of the guarded
comparison. -/
theorem greaterOrEqualStoresTheComparison : Obligations.GreaterOrEqualStoresTheComparison := by
  unfold Obligations.GreaterOrEqualStoresTheComparison
  refine ⟨fun w => ?_, fun raddr memaddr rleft s => ?_⟩
  · obtain ⟨-, -, -, hlayout, -⟩ := decodeFollowsTheLayouts w
    exact hlayout
  refine ⟨_, exec_greaterOrEqual raddr memaddr rleft s, ?_, fun r => ?_, ?_, ?_⟩
  · rintro _ rfl
    refine ⟨fun hsource hdest => ?_, fun hout => ?_, fun b hb => ?_⟩
    · exact (congrArg BitVec.toNat (memRead_storeComparison_in s rleft hsource hdest)).trans (compareResult_toNat _ _)
    · have hout : 65536 ≤ literalAddr memaddr ∨ 65536 ≤ registerAddr s raddr :=
        (not_and_or.1 hout).imp Nat.le_of_not_lt Nat.le_of_not_lt
      rw [storeComparison_out rleft hout, memRead_advance]
    · exact memRead_storeComparison_other s memaddr rleft (.inl hb)
  · rw [readReg_advance, readReg_storeComparison]
  · rw [advance_ip, storeComparison_ip]
  · rw [advance_stream, storeComparison_stream]

/-- Settles O15: out of bounds the effect is the identity; in bounds the cell holds a comparison's value. -/
theorem greaterOrEqualWritesOnlyWhenBothInBounds : Obligations.GreaterOrEqualWritesOnlyWhenBothInBounds := by
  unfold Obligations.GreaterOrEqualWritesOnlyWhenBothInBounds
  intro raddr memaddr rleft s
  refine ⟨fun hout => ?_, fun hsource hdest => ⟨_, exec_greaterOrEqual raddr memaddr rleft s, ?_⟩⟩
  · have hout : 65536 ≤ literalAddr memaddr ∨ 65536 ≤ registerAddr s raddr := hout
    rw [exec_greaterOrEqual, storeComparison_out rleft hout]
    rfl
  · have hcell := memRead_storeComparison_in s rleft hsource hdest
    exact (compareResult_eq_zero_or_one _ _).imp hcell.trans hcell.trans

end Sys2Proof.Machine

/-! # Proofs: the statements of the chapter on the unrecognized opcodes (`43_unrecognized.md`) -/

namespace Sys2Proof

/-! ## Packing an operand of any size (O42) -/

/-- Cutting an integer to a field at once or by way of a wider word is the same. -/
theorem setWidth_ofInt {m n : Nat} (h : m ≤ n) (v : Int) : (BitVec.ofInt n v).setWidth m = BitVec.ofInt m v := by
  have hdvd : ((2 ^ m : Nat) : Int) ∣ ((2 ^ n : Nat) : Int) := Int.natCast_dvd_natCast.2 (pow_dvd_pow 2 h)
  have hm : ((2 ^ m : Nat) : Int) ≠ 0 := Int.natCast_ne_zero.2 (Nat.two_pow_pos m).ne'
  have hn : ((2 ^ n : Nat) : Int) ≠ 0 := Int.natCast_ne_zero.2 (Nat.two_pow_pos n).ne'
  apply BitVec.eq_of_toNat_eq
  rw [BitVec.toNat_setWidth, BitVec.toNat_ofInt, BitVec.toNat_ofInt]
  apply Int.ofNat.inj
  calc (((v % (2 ^ n : Nat)).toNat % 2 ^ m : Nat) : Int)
    _ = v % (2 ^ n : Nat) % (2 ^ m : Nat) := by rw [Int.natCast_mod, Int.toNat_of_nonneg (Int.emod_nonneg _ hn)]
    _ = v % (2 ^ m : Nat) := Int.emod_emod_of_dvd _ hdvd
    _ = (v % (2 ^ m : Nat)).toNat := (Int.toNat_of_nonneg (Int.emod_nonneg _ hm)).symm

/-- Packing an integer is packing the field value that it is cut to (R63). -/
theorem setBits_ofInt_toNat (w : InstrWord) (start len : Nat) (value : Int) (h : start + len ≤ 64) :
    setBits w start len (BitVec.ofInt len value).toNat h = setBits w start len value h := by
  apply BitVec.eq_of_getLsbD_eq
  intro i hi
  rw [setBits_getLsbD _ _ _ _ _ hi, setBits_getLsbD _ _ _ _ _ hi]
  split
  · next hfield =>
    have hlen : i - start < len := by omega
    have h64 : i - start < 64 := by omega
    rw [BitVec.ofInt_natCast, BitVec.getLsbD_ofNat, ← setWidth_ofInt (n := 64) (by omega), BitVec.testBit_toNat,
      BitVec.getLsbD_setWidth]
    simp [hlen, h64]
  · rfl

theorem packLoadConst_eq_encodeWord (b c : Int) :
    packLoadConst b c = encodeWord (.loadConst (BitVec.ofInt 6 b).toFin (BitVec.ofInt 21 c)) := by
  simp only [encodeWord, packLoadConst, BitVec.val_toFin, setBits_ofInt_toNat]

theorem packReadValue_eq_encodeWord (b c d : Int) :
    packReadValue b c d =
      encodeWord (.readValue (BitVec.ofInt 6 b).toFin (BitVec.ofInt 6 c).toFin (BitVec.ofInt 6 d)) := by
  simp only [encodeWord, packReadValue, BitVec.val_toFin, setBits_ofInt_toNat]

theorem packWriteValue_eq_encodeWord (b c d : Int) :
    packWriteValue b c d =
      encodeWord (.writeValue (BitVec.ofInt 6 b).toFin (BitVec.ofInt 6 c).toFin (BitVec.ofInt 6 d)) := by
  simp only [encodeWord, packWriteValue, BitVec.val_toFin, setBits_ofInt_toNat]

theorem packGreaterOrEqual_eq_encodeWord (b c d : Int) :
    packGreaterOrEqual b c d =
      encodeWord (.greaterOrEqual (BitVec.ofInt 6 b).toFin (BitVec.ofInt 28 c) (BitVec.ofInt 6 d).toFin) := by
  simp only [encodeWord, packGreaterOrEqual, BitVec.val_toFin, setBits_ofInt_toNat]

/-! ## The words of a sequence of instructions (O42) -/

theorem length_flatMap_encode (is : List Instr) : (is.flatMap encode).length = 8 * is.length := by
  induction is with
  | nil => rfl
  | cons i is ih => rw [List.flatMap_cons, List.length_append, ih, encode, bytesOfWord_length, List.length_cons]; omega

end Sys2Proof

namespace Sys2Proof.Machine

theorem wordAt_bytesOfWord_append_zero (w : InstrWord) (bs : List Byte) : wordAt (bytesOfWord w ++ bs) 0 = w := by
  rw [wordAt, streamRead, Nat.mul_zero, List.drop_zero, List.take_left' (bytesOfWord_length w), wordOfBytes_bytesOfWord]

theorem wordAt_bytesOfWord_append_succ (w : InstrWord) (bs : List Byte) (j : Nat) :
    wordAt (bytesOfWord w ++ bs) (j + 1) = wordAt bs j := by
  have hdrop : (bytesOfWord w ++ bs).drop (8 * (j + 1)) = bs.drop (8 * j) := by
    rw [Nat.mul_succ, Nat.add_comm, ← List.drop_drop, List.drop_left' (bytesOfWord_length w)]
  rw [wordAt, wordAt, streamRead, streamRead, hdrop]

/-- The `j`-th word of instructions encoded one after another is the word of the `j`-th. -/
theorem wordAt_flatMap_encode {is : List Instr} {j : Nat} (hj : j < is.length) :
    wordAt (is.flatMap encode) j = encodeWord is[j] := by
  induction is generalizing j with
  | nil => cases hj
  | cons i is ih =>
    rw [List.flatMap_cons, encode]
    cases j with
    | zero => exact wordAt_bytesOfWord_append_zero _ _
    | succ j =>
      rw [wordAt_bytesOfWord_append_succ]
      exact ih (Nat.lt_of_succ_lt_succ hj)

/-! ## What an assembly is made of (O42) -/

/-- The inversion lemma for one tuple: a word it gives is the encoding of one of the four instructions (R65, R107). -/
theorem eq_encodeWord_of_encodeTuple {t : AsmTuple} {w : InstrWord} (h : encodeTuple t = .ok (some w)) :
    ∃ i, i ∉ noOpInstrs ∧ w = encodeWord i := by
  unfold encodeTuple at h
  split_ifs at h
  · split at h <;> cases h
    exact ⟨_, by simp [noOpInstrs], packLoadConst_eq_encodeWord _ _⟩
  · split at h <;> cases h
    exact ⟨_, by simp [noOpInstrs], packReadValue_eq_encodeWord _ _ _⟩
  · split at h <;> cases h
    exact ⟨_, by simp [noOpInstrs], packWriteValue_eq_encodeWord _ _ _⟩
  · split at h <;> cases h
    exact ⟨_, by simp [noOpInstrs], packGreaterOrEqual_eq_encodeWord _ _ _⟩
  · cases h

/-- An assembled program is a sequence of the four instructions, encoded one after another (R66, R107). -/
theorem assemble_bytes_eq_flatMap_encode {ts : List AsmTuple} {out : AsmOutput} (h : assemble ts = .ok out) :
    ∃ is : List Instr, (∀ i ∈ is, i ∉ noOpInstrs) ∧ out.bytes = is.flatMap encode := by
  induction ts generalizing out with
  | nil => cases h; exact ⟨[], by simp, rfl⟩
  | cons t ts ih =>
    rw [assemble_cons] at h
    cases ht : encodeTuple t with
    | error e => rw [ht] at h; cases h
    | ok w =>
      cases hts : assemble ts with
      | error e => rw [ht, hts] at h; cases h
      | ok rest =>
        rw [ht, hts] at h
        cases h
        obtain ⟨is, his, hbytes⟩ := ih hts
        cases w with
        | none => exact ⟨is, his, hbytes⟩
        | some w =>
          obtain ⟨i, hi, rfl⟩ := eq_encodeWord_of_encodeTuple ht
          exact ⟨i :: is, List.forall_mem_cons.2 ⟨hi, his⟩, congrArg (encode i ++ ·) hbytes⟩

/-- Settles O42: the bytes are those of encoded instructions, none a no-op slot, and an encoded instruction is a
canonical word that decodes to it. -/
theorem assemblerEmitsOnlyTheFourOpcodes : Obligations.AssemblerEmitsOnlyTheFourOpcodes := by
  unfold Obligations.AssemblerEmitsOnlyTheFourOpcodes
  intro ts out h
  obtain ⟨is, his, hbytes⟩ := assemble_bytes_eq_flatMap_encode h
  rw [hbytes, length_flatMap_encode]
  refine ⟨Nat.mul_mod_right 8 _, fun j hj => ?_⟩
  have hj : j < is.length := by omega
  rw [wordAt_flatMap_encode hj, decodeWord_encodeWord]
  exact ⟨canonicalWord_encodeWord _, his _ (List.getElem_mem hj)⟩

/-! ## The no-op slots (O16) -/

/-- Settles O16: any other opcode selects a no-op slot, and a no-op slot only advances `ip`. -/
theorem unrecognizedOpcodesOnlyAdvance : Obligations.UnrecognizedOpcodesOnlyAdvance := by
  unfold Obligations.UnrecognizedOpcodesOnlyAdvance
  exact ⟨fun _ => decodeWord_mem_noOpInstrs, fun _ hi s => exec_of_mem_noOpInstrs hi s⟩

end Sys2Proof.Machine

/-! # Proofs: the statements of the exceptions chapter (`60_exceptions.md`) -/

namespace Sys2Proof.Machine

/-! ## Execution is total (O27) -/

/-- Settles O27: no instruction and no step has another outcome than a next state, and a run is halted exactly at its last
word, where the result is read out. -/
theorem executionIsTotal : Obligations.ExecutionIsTotal := by
  unfold Obligations.ExecutionIsTotal
  refine ⟨exec_next, step_next, fun stream => ⟨fun k hk => ?_, ?_, ?_⟩⟩
  · obtain ⟨t, hrun, -, hhalted⟩ := runHaltsAfterExactlyItsWords stream k hk.le
    exact ⟨t, hrun, Bool.eq_false_iff.2 fun h => hk.ne (hhalted.1 h)⟩
  · obtain ⟨t, hrun, -, hhalted⟩ := runHaltsAfterExactlyItsWords stream _ le_rfl
    exact ⟨t, hrun, hhalted.2 rfl⟩
  · obtain ⟨t, -, hresult⟩ := execute_eq_run stream
    exact ⟨(t.x, t.mem), hresult⟩

end Sys2Proof.Machine

/-! # Proofs: the statements of the chapter on reset and hazards (`70_reset_and_hazards.md`) -/

namespace Sys2Proof.Machine

/-! ## A state read as the reference's natural numbers -/

@[simp] theorem toRef_x (s : State) (r : RegIdx) : s.toRef.x r.val = (readReg s r).toNat :=
  dif_pos r.isLt

@[simp] theorem toRef_mem (s : State) (a : Nat) : s.toRef.mem a = (memRead s a).toNat := rfl
@[simp] theorem toRef_ip (s : State) : s.toRef.ip = s.ip := rfl

theorem toRef_load (stream : List Byte) : (State.load stream).toRef = refReset := by
  have hx : (State.load stream).toRef.x = refReset.x := by
    funext i
    simp [State.toRef, refReset]
  exact congrArg (fun x => RefState.mk x refReset.mem 0) hx

theorem toRef_advance (s : State) : (advance s).toRef = { s.toRef with ip := s.toRef.ip + 8 } := rfl

/-- Writing a register is the reference's `x[r] <- v`. -/
theorem toRef_writeReg (s : State) (r : RegIdx) (v : Word) :
    (writeReg s r v).toRef = { s.toRef with x := refSet s.toRef.x r.val v.toNat } := by
  have hx : (writeReg s r v).toRef.x = refSet s.toRef.x r.val v.toNat := by
    funext i
    by_cases hi : i < 64
    · have hval : (⟨i, hi⟩ : RegIdx) = r ↔ i = r.val := Fin.ext_iff
      simp only [State.toRef, refSet, hi, dif_pos, readReg_writeReg, hval]
      split <;> rfl
    · have hne : i ≠ r.val := fun h => hi (h ▸ r.isLt)
      simp [State.toRef, refSet, hi, hne]
  exact congrArg (fun x => RefState.mk x s.toRef.mem s.ip) hx

/-- Writing a cell is the reference's `mem[a] <- v`. -/
theorem toRef_memWrite (s : State) (a : Nat) (v : Word) :
    (memWrite s a v).toRef = { s.toRef with mem := refSet s.toRef.mem a v.toNat } := by
  have hmem : (memWrite s a v).toRef.mem = refSet s.toRef.mem a v.toNat := by
    funext b
    rw [toRef_mem, memRead_memWrite, refSet]
    split <;> rfl
  exact congrArg (fun mem => RefState.mk s.toRef.x mem s.ip) hmem

/-- A guarded load is the reference's load under its bounds check. -/
theorem toRef_loadCell (s : State) (a : Nat) (rd : RegIdx) :
    (loadCell s a rd).toRef =
      if a < 65536 then { s.toRef with x := refSet s.toRef.x rd.val (s.toRef.mem a) } else s.toRef := by
  split
  · next ha => rw [loadCell_in ha, toRef_writeReg, toRef_mem]
  · next ha => rw [loadCell_out (Nat.le_of_not_lt ha)]

/-- A guarded store is the reference's store under its bounds check. -/
theorem toRef_storeCell (s : State) (a : Nat) (v : Word) :
    (storeCell s a v).toRef =
      if a < 65536 then { s.toRef with mem := refSet s.toRef.mem a v.toNat } else s.toRef := by
  split
  · next ha => rw [storeCell_in ha, toRef_memWrite]
  · next ha => rw [storeCell_out (Nat.le_of_not_lt ha)]

/-- The effect of greater-or-equal is the reference's store of the comparison under its two bounds checks. -/
theorem toRef_storeComparison (s : State) (raddr : RegIdx) (memaddr : BitVec Config.memAddrBits) (rleft : RegIdx) :
    (storeComparison s raddr memaddr rleft).toRef =
      if literalAddr memaddr < 65536 ∧ registerAddr s raddr < 65536 then
        { s.toRef with mem := refSet s.toRef.mem (registerAddr s raddr)
                                (if s.toRef.mem (literalAddr memaddr) ≤ s.toRef.x rleft.val then 1 else 0) }
      else s.toRef := by
  split
  · next h =>
    obtain ⟨hsource, hdest⟩ := h
    rw [storeComparison_eq, if_pos hsource, storeCell_in hdest, toRef_memWrite, compareResult_toNat, toRef_mem, toRef_x]
  · next h =>
    rw [storeComparison_out rleft ((not_and_or.1 h).imp Nat.le_of_not_lt Nat.le_of_not_lt)]

/-! ## The effect of a word, arm by arm -/

section Arms

variable {w : Nat} (r : RefState)

theorem refSlice_opcode (w : Nat) : refSlice w 3 0 = w % 16 := by
  simp [refSlice]

theorem refEffect_loadConst (h : w % 16 = 14) :
    refEffect none w r = { r with x := refSet r.x (refSlice w 9 4) (refSlice w 30 10) } := by
  rw [refEffect, refSlice_opcode, h]; rfl

theorem refEffect_readValue (h : w % 16 = 5) :
    refEffect none w r =
      if r.x (refSlice w 9 4) + refSlice w 21 16 < 65536 then
        { r with x := refSet r.x (refSlice w 15 10) (r.mem (r.x (refSlice w 9 4) + refSlice w 21 16)) }
      else r := by
  rw [refEffect, refSlice_opcode, h]; rfl

theorem refEffect_writeValue (h : w % 16 = 3) :
    refEffect none w r =
      if r.x (refSlice w 15 10) + refSlice w 21 16 < 65536 then
        { r with mem := refSet r.mem (r.x (refSlice w 15 10) + refSlice w 21 16) (r.x (refSlice w 9 4)) }
      else r := by
  rw [refEffect, refSlice_opcode, h]; rfl

theorem refEffect_greaterOrEqual (h : w % 16 = 10) :
    refEffect none w r =
      if refSlice w 37 10 < 65536 ∧ r.x (refSlice w 9 4) < 65536 then
        { r with mem := refSet r.mem (r.x (refSlice w 9 4))
                          (if r.mem (refSlice w 37 10) ≤ r.x (refSlice w 43 38) then 1 else 0) }
      else r := by
  rw [refEffect, refSlice_opcode, h]; rfl

theorem refEffect_noOp (h14 : w % 16 ≠ 14) (h5 : w % 16 ≠ 5) (h3 : w % 16 ≠ 3) (h10 : w % 16 ≠ 10) :
    refEffect none w r = r := by
  rw [refEffect, refSlice_opcode, if_neg h14, if_neg h5, if_neg h3, if_neg h10]

end Arms

/-! ## One step (O36) -/

/-- The simulation, one word: the instruction that a word decodes to has the reference's effect of that word, and then
advances `ip`. The cases are the opcodes in the order of R131; the reference's slices are the decoded operands (O4). -/
theorem exec_decodeWord_refEffect (w : InstrWord) (s : State) :
    ∃ u, exec (decodeWord w) s = .next (advance u) ∧ u.toRef = refEffect none w.toNat s.toRef := by
  obtain ⟨hloadConst, hreadValue, hwriteValue, hgreaterOrEqual, hnoOp⟩ := decodeFollowsTheLayouts w
  by_cases h14 : w.toNat % 16 = 14
  · obtain ⟨rd, const, hdecode, hrd, hconst⟩ := hloadConst h14
    have hB : refSlice w.toNat 9 4 = rd.val := hrd.symm
    have hC : refSlice w.toNat 30 10 = const.toNat := hconst.symm
    refine ⟨_, hdecode ▸ exec_loadConst rd const s, ?_⟩
    rw [toRef_writeReg, refEffect_loadConst _ h14, hB, hC, constValue_toNat]
  by_cases h5 : w.toNat % 16 = 5
  · obtain ⟨rbase, rd, off, hdecode, hrbase, hrd, hoff⟩ := hreadValue h5
    have hB : refSlice w.toNat 9 4 = rbase.val := hrbase.symm
    have hC : refSlice w.toNat 15 10 = rd.val := hrd.symm
    have hD : refSlice w.toNat 21 16 = off.toNat := hoff.symm
    refine ⟨_, hdecode ▸ exec_readValue rbase rd off s, ?_⟩
    rw [toRef_loadCell, refEffect_readValue _ h5, hB, hC, hD, toRef_x, baseOffsetAddr]
  by_cases h3 : w.toNat % 16 = 3
  · obtain ⟨rdata, rbase, off, hdecode, hrdata, hrbase, hoff⟩ := hwriteValue h3
    have hB : refSlice w.toNat 9 4 = rdata.val := hrdata.symm
    have hC : refSlice w.toNat 15 10 = rbase.val := hrbase.symm
    have hD : refSlice w.toNat 21 16 = off.toNat := hoff.symm
    refine ⟨_, hdecode ▸ exec_writeValue rdata rbase off s, ?_⟩
    rw [toRef_storeCell, refEffect_writeValue _ h3, hB, hC, hD, toRef_x, toRef_x, baseOffsetAddr]
  by_cases h10 : w.toNat % 16 = 10
  · obtain ⟨raddr, memaddr, rleft, hdecode, hraddr, hmemaddr, hrleft⟩ := hgreaterOrEqual h10
    have hB : refSlice w.toNat 9 4 = raddr.val := hraddr.symm
    have hC : refSlice w.toNat 37 10 = memaddr.toNat := hmemaddr.symm
    have hD : refSlice w.toNat 43 38 = rleft.val := hrleft.symm
    refine ⟨_, hdecode ▸ exec_greaterOrEqual raddr memaddr rleft s, ?_⟩
    rw [toRef_storeComparison, refEffect_greaterOrEqual _ h10, hB, hC, hD, toRef_x s raddr, registerAddr, literalAddr]
  · obtain ⟨hmem, -⟩ := hnoOp h14 h5 h3 h10
    exact ⟨s, exec_of_mem_noOpInstrs hmem s, (refEffect_noOp _ h14 h5 h3 h10).symm⟩

/-- The word fetched, read as the reference reads the bytes from `ip` on. -/
theorem fetchWord_toNat (s : State) : (fetchWord s).toNat = refWord ((s.stream.drop s.ip).take 8) :=
  wordOfBytes_toNat (List.length_take_le 8 _)

/-- Settles O36: the word fetched is the reference's, it has the reference's effect, and both advance by 8. -/
theorem stepRefinesTheReferenceStep : Obligations.StepRefinesTheReferenceStep := by
  unfold Obligations.StepRefinesTheReferenceStep
  intro s hs
  obtain ⟨u, hexec, hu⟩ := exec_decodeWord_refEffect (fetchWord s) s
  refine ⟨advance u, (step_of_running hs).trans hexec, ?_⟩
  rw [toRef_advance, hu, fetchWord_toNat]
  rfl

/-! ## The run (O37) -/

/-- The simulation, a run: after at most `k` steps the state reads as the reference's loop leaves it. -/
theorem run_toRef {k : Nat} {s t : State} (hrun : run k s = .next t) :
    t.toRef = refLoop none s.stream k s.toRef := by
  induction k generalizing s with
  | zero =>
    cases hrun
    rfl
  | succ k ih =>
    rw [refLoop, toRef_ip]
    cases hs : halted s with
    | true =>
      rw [run_of_halted hs] at hrun
      cases hrun
      rw [if_neg (Nat.not_le.2 ((halted_iff t).1 hs))]
    | false =>
      obtain ⟨u, hstep, hu⟩ := stepRefinesTheReferenceStep s hs
      rw [run_succ_of_step hstep] at hrun
      rw [if_pos ((halted_eq_false_iff s).1 hs), ← hu, ← step_stream hstep]
      exact ih hrun

/-- A run that has come to a halt stays there however many more steps are asked of it (R14). -/
theorem run_of_le {k n : Nat} {s t : State} (hrun : run k s = .next t) (ht : halted t = true) (hle : k ≤ n) :
    run n s = .next t := by
  induction k generalizing s n with
  | zero =>
    cases hrun
    exact run_of_halted ht n
  | succ k ih =>
    obtain ⟨n, rfl⟩ := Nat.exists_eq_add_of_le' hle
    obtain ⟨u, hstep⟩ := step_next s
    rw [run_succ_of_step hstep] at hrun
    rw [← Nat.add_assoc, run_succ_of_step hstep]
    exact ih hrun (Nat.le_add_left k n)

/-- Settles O37: the run that `execute` reads out is halted, so any number of further turns leaves it as it is. -/
theorem executeRefinesTheReferenceRun : Obligations.ExecuteRefinesTheReferenceRun := by
  unfold Obligations.ExecuteRefinesTheReferenceRun
  intro stream k hk
  obtain ⟨t, hrun, hresult⟩ := execute_eq_run stream
  obtain ⟨t', hrun', -, hhalted⟩ := runHaltsAfterExactlyItsWords stream _ le_rfl
  cases hrun.symm.trans hrun'
  have ht : halted t = true := hhalted.2 rfl
  have href : t.toRef = refLoop none stream k refReset := by
    rw [run_toRef (run_of_le hrun ht hk), load_stream, toRef_load]
  refine ⟨?_, t, hresult, href⟩
  have hstream : t.stream = stream := run_stream hrun
  rw [← href, toRef_ip]
  rw [halted_iff, hstream] at ht
  exact ht

end Sys2Proof.Machine
